-- ==== Sys2Proof/Word.lean ====
section
/-! DEFINITION. The words of the dice bit packer: 8-bit command words and bytes, and the bit sequences of R9. -/

namespace Sys2Proof

/-- One byte: a read-port byte, an OUT byte, an AUDIT entry (20_memory.md R55, 10_state.md R29, R36). -/
abbrev Byte := BitVec 8

/-- One command word of the one format CMD8 (30_encoding.md R80). -/
abbrev Word := BitVec 8

/-- A bit sequence, first bit first (00_scope.md R9). -/
abbrev Bits := List Bool

end Sys2Proof
end

