-- ==== Sys2Proof/Syntax.lean ====
section
/-! DEFINITION. The commands (one constructor per row of the opcode table), what a decoder answers, a row of the opcode map,
and the abstract syntax of the assembler. -/

namespace Sys2Proof

/-- The five commands (30_encoding.md R82). The argument is the 4-bit field ARG as it stands in the word (R81). -/
inductive Instr where
  /-- R100 -/
  | nop
  /-- R101: the strength selector, every value 0..15 -/
  | start (sel : BitVec 4)
  /-- R120: the die value, every value 0..15 -/
  | roll (d : BitVec 4)
  /-- R102 -/
  | cancel
  /-- R103 -/
  | ack
deriving DecidableEq, Repr

/-- Why a word is illegal (30_encoding.md R82, R83): which of its illegal rows it is in. -/
inductive Illegal where
  /-- 0x01-0x0F, 0x31-0x3F, 0x41-0x4F: an opcode that requires `ARG = 0` with another argument. -/
  | argNotZero
  /-- 0x50-0xFF: no command has this opcode. -/
  | reservedOpcode
deriving DecidableEq, Repr

/-- What the decoder reads from one word: a command, or an illegal word by name. -/
inductive Decoded where
  | instr (i : Instr)
  | illegal (why : Illegal)
deriving DecidableEq, Repr

/-- A mask-and-match row of the opcode map (30_encoding.md R82): it takes the words `w` with `w & mask = value`. -/
structure Row where
  mask  : Word
  value : Word
deriving DecidableEq, Repr

/-- Assembler programs (30_encoding.md R87, R88), as abstract syntax: reading the text is the host's (log entry 12). -/
inductive Asm where
  | nop
  | start (sel : Nat)
  | roll (d : Nat)
  | cancel
  | ack
  /-- `.word <hex>`: any 8-bit word unchanged -/
  | word (w : Nat)
  /-- `READ <addr>`: a host read, which assembles to no word -/
  | read (a : Nat)
  /-- `PAIR <a>, <b>` -/
  | pair (a b : Nat)
  /-- `ROLLS <d1> ... <dn>` -/
  | rolls (ds : List Nat)
  /-- `REPEAT <n> { <lines> }` -/
  | rep (n : Nat) (body : Asm)
  /-- `WAITEVT`: a loop of host reads, which assembles to no word -/
  | waitEvt
  /-- an empty line or a comment -/
  | skip
  /-- one line after another -/
  | seq (a b : Asm)
deriving DecidableEq, Repr

end Sys2Proof
end

