-- ==== Sys2Proof/WellFormed.lean ====
section
/-! DEFINITION. Which commands and assembler lines are well formed. -/

namespace Sys2Proof

/-- Every command is well formed: ARG is the whole 4-bit field, and no value of it is an illegal encoding of START or ROLL
(30_encoding.md R84). One arm per constructor, so that a new command must be judged here. -/
def Instr.wf : Instr → Bool
  | .nop => true
  | .start _ => true
  | .roll _ => true
  | .cancel => true
  | .ack => true

/-- An assembler operand `<sel>` or `<d>` is a decimal integer 0..15 (30_encoding.md R87). -/
def argOk (n : Nat) : Bool := decide (n ≤ 15)

/-- A word or a read address is 8 bits wide (30_encoding.md R87, 20_memory.md R52). -/
def byteOk (n : Nat) : Bool := decide (n ≤ 255)

/-- Every operand of every line is in its range. -/
def Asm.wf : Asm → Bool
  | .nop | .cancel | .ack | .waitEvt | .skip => true
  | .start n => argOk n
  | .roll n => argOk n
  | .word w => byteOk w
  | .read a => byteOk a
  | .pair a b => argOk a && argOk b
  | .rolls ds => ds.all argOk
  | .rep _ body => body.wf
  | .seq a b => a.wf && b.wf

end Sys2Proof
end

