-- ==== Sys2Proof/Decode.lean ====
section
/-! DEFINITION. The decoder, total on all 256 words, the encoder, the opcode map as mask-and-match rows, and the
assembler (30_encoding.md). -/

namespace Sys2Proof

/-- `OP = w[7:4]` (R81). -/
def opField (w : Word) : BitVec 4 := w.extractLsb' 4 4

/-- `ARG = w[3:0]` (R81). -/
def argField (w : Word) : BitVec 4 := w.extractLsb' 0 4

/-- The opcodes that require `ARG = 0` (R81, R82). -/
def noArg (arg : BitVec 4) (i : Instr) : Decoded :=
  if arg = 0 then .instr i else .illegal .argNotZero

/-- The opcode map (R82). -/
def decode (w : Word) : Decoded :=
  if opField w = 0x0 then noArg (argField w) .nop
  else if opField w = 0x1 then .instr (.start (argField w))
  else if opField w = 0x2 then .instr (.roll (argField w))
  else if opField w = 0x3 then noArg (argField w) .cancel
  else if opField w = 0x4 then noArg (argField w) .ack
  else .illegal .reservedOpcode

/-- The word of a command, `OP` in bits 7:4 and `ARG` in bits 3:0 (R80, R82). -/
def encode : Instr → Word
  | .nop => 0x0#4 ++ 0x0#4
  | .start sel => 0x1#4 ++ sel
  | .roll d => 0x2#4 ++ d
  | .cancel => 0x3#4 ++ 0x0#4
  | .ack => 0x4#4 ++ 0x0#4

/-- Whether a mask-and-match row takes a word. -/
def Row.takes (r : Row) (w : Word) : Bool := w &&& r.mask == r.value

/-- The mask-and-match form of the opcode map (R82): NOP, START, ROLL, CANCEL, ACK. -/
def opcodeRows : List Row :=
  [⟨0xFF, 0x00⟩, ⟨0xF0, 0x10⟩, ⟨0xF0, 0x20⟩, ⟨0xFF, 0x30⟩, ⟨0xFF, 0x40⟩]

/-- The command a decoder's answer holds, if it holds one. -/
def Decoded.instr? : Decoded → Option Instr
  | .instr i => some i
  | .illegal _ => none

/-- What the decoder reads from the `nbits` bits of `w`; the one word of a command is its first byte. -/
def decodeTableWord (nbits w : Nat) : Option Instr :=
  (decode (BitVec.ofNat 8 (w % 2 ^ nbits))).instr?

/-- The words an assembler program stands for, pseudo-instructions expanded (R87, R88). -/
def Asm.assemble : Asm → List Word
  | .nop => [encode .nop]
  | .start n => [encode (.start (BitVec.ofNat 4 n))]
  | .roll n => [encode (.roll (BitVec.ofNat 4 n))]
  | .cancel => [encode .cancel]
  | .ack => [encode .ack]
  | .word w => [BitVec.ofNat 8 w]
  | .read _ => []
  | .pair a b => [encode (.roll (BitVec.ofNat 4 a)), encode (.roll (BitVec.ofNat 4 b))]
  | .rolls ds => ds.map fun d => encode (.roll (BitVec.ofNat 4 d))
  | .rep n body => (List.replicate n body.assemble).flatten
  | .waitEvt => []
  | .skip => []
  | .seq a b => a.assemble ++ b.assemble

end Sys2Proof
end

