-- ==== Sys2Proof/Machine/BitSeq.lean ====
section
/-! DEFINITION. Bit sequences, numerals and bytes (00_scope.md R9, R10, R11). The byte order of the whole block is decided
here, once: the first bit of a group of eight is the most significant (20_memory.md R64). -/

namespace Sys2Proof.Machine

/-- The bits of a register as a sequence, most significant first: `ACC@i = ACCREG[263 - i]` (10_state.md R28), and a digest
with its leading zeros kept (20_memory.md R65). -/
def bitsOf {n : Nat} (v : BitVec n) : Bits := (List.range n).map v.getMsbD

/-- The number a bit sequence writes, first bit most significant (R11). -/
def natOf (a : Bits) : Nat := a.foldl (fun n b => 2 * n + b.toNat) 0

/-- The register of `n` bits that holds a sequence of `n` bits. -/
def ofBits (n : Nat) (a : Bits) : BitVec n := BitVec.ofNat n (natOf a)

/-- `zeros(n)` (R9). -/
def zeros (n : Nat) : Bits := List.replicate n false

/-- How many binary digits the numeral of `c` has. -/
def digitCount (c : Nat) : Nat := if c = 0 then 1 else Nat.log2 c + 1

/-- The last `w` binary digits of `c`, most significant first. -/
def numeral (w c : Nat) : Bits := (List.range w).map fun i => c.testBit (w - 1 - i)

/-- `bin5(c)` (R10): left-padded to at least 5 digits, and longer where the numeral is. -/
def bin5 (c : Nat) : Bits := numeral (max 5 (digitCount c)) c

/-- `bin64(v)` (42_finalize.md R141). -/
def bin64 (v : Nat) : Bits := numeral 64 v

/-- `trunc8(A)` (R11): the bits after the last full byte are dropped. -/
def trunc8 (a : Bits) : Bits := a.take (8 * (a.length / 8))

/-- `bytes(A)` (R11): byte `k` is the number its bits `8k .. 8k+7` write. -/
def bytes (a : Bits) : List Byte :=
  (List.range (a.length / 8)).map fun k => ofBits 8 ((a.drop (8 * k)).take 8)

/-- `bits(E)` (R11). -/
def bits (e : List Byte) : Bits := e.flatMap bitsOf

end Sys2Proof.Machine
end

