-- ==== Sys2Proof/Config.lean ====
section
/-! DEFINITION. The parameters a model takes (00_scope.md R7): the three build-time choices, which State carries so that
every claim is for all their values (log entry 1), and the hash function, left uninterpreted (log entry 2). -/

namespace Sys2Proof.Config

/-- `P_SYM_OVF`: which 5 bits a symbol 32..35 contributes (41_collect.md R124, decision D6). -/
inductive SymOvf where
  | prefix5
  | low5
deriving DecidableEq, Repr

/-- `P_HASH_IF`: whether the hash port also carries the padded message block (42_finalize.md R140, R141, decision D9). -/
inductive HashIf where
  | msg
  | block
deriving DecidableEq, Repr

/-- The parameters fixed when the block is built (70_reset_and_hazards.md R184). -/
structure Params where
  symOvf   : SymOvf
  hashIf   : HashIf
  /-- `P_HASH_FAIL`: whether the hash engine may answer with a failure (decision D10). -/
  hashFail : Bool
deriving DecidableEq, Repr

/-- The defaults of 00_scope.md R7. -/
def defaults : Params := { symOvf := .prefix5, hashIf := .msg, hashFail := true }

/-- `SHA256`, from byte strings to 256-bit values, left uninterpreted as 42_finalize.md R149 allows: no proof can see a
digest, so no claim rests on one (log entry 2). -/
opaque sha256 : List Byte → BitVec 256

end Sys2Proof.Config
end

