-- ==== Sys2Proof/Machine/State.lean ====
section
/-! DEFINITION. The state of the dice bit packer (10_state.md), of the agents around it, and the machine right after
reset. -/

namespace Sys2Proof.Machine

open Sys2Proof.Config (Params defaults)

/-- Why a step stops with a fault. The block has no trap mechanism and nothing faults on a value (60_exceptions.md R160,
R161): there is no reason, and no step of the model ever answers a fault. -/
inductive Fault where
deriving DecidableEq, Repr

/-- Why the model gives a step no meaning. -/
inductive Refusal where
  /-- Raised by an arm of `exec` whose command has no meaning yet. Safe: no claim about that command can be proved. -/
  | notModelled (mnemonic : String)
  /-- Raised by every step but reset in a state whose `ST` holds 5, 6 or 7, which has left the spec (10_state.md R22,
  93_implementation_defined.md I8). Safe: no rule gives such a state a meaning. -/
  | illegalState
deriving DecidableEq, Repr

/-- The request the hash engine captures on the edge where it transfers (20_memory.md R53): the signals `hreq_len[5:0]`,
`hreq_msg[263:0]` and `hreq_blk[511:0]`. -/
structure HashReq where
  len : BitVec 6
  msg : BitVec 264
  blk : BitVec 512
deriving DecidableEq, Repr

/-- Which agent the next step belongs to (00_scope.md R5, 60_exceptions.md R167). -/
inductive Turn where
  /-- the host offers the first of its words (20_memory.md R51) -/
  | host
  /-- the hash engine answers the outstanding request, with failure bit `err` (42_finalize.md R142) -/
  | engine (err : Bool)
  /-- the platform asserts `rst` (70_reset_and_hazards.md R181) -/
  | rst
deriving DecidableEq, Repr

/-- The registers of 10_state.md, then four fields of the model's own (log entries 1, 3, 5): the build's parameters, the
request the engine holds, the host's word stream and the order in which the agents move. -/
structure State where
  /-- `ST`, R22 -/
  st      : BitVec 3
  /-- `SEL`, R23 -/
  sel     : BitVec 3
  /-- `HALF`, R25 -/
  half    : Bool
  /-- `R1`, R25 -/
  r1      : BitVec 3
  /-- `PCNT`, R26 -/
  pcnt    : BitVec 6
  /-- `BGEN`, R27 -/
  bgen    : BitVec 9
  /-- `ACCREG`, R28: `ACC@i = ACCREG[263 - i]`, the first appended bit the most significant -/
  acc     : BitVec 264
  /-- `AUDIT[0..51]`, R29 -/
  audit   : Vector Byte 52
  /-- `HPEND`, R32 -/
  hpend   : Bool
  /-- `RAWLEN`, R33 -/
  rawlen  : BitVec 6
  /-- `DIG0`, R34 -/
  dig0    : Byte
  /-- `CANDLEN`, R35 -/
  candlen : BitVec 6
  /-- `OUTLEN`, R35 -/
  outlen  : BitVec 6
  /-- `OUT[0..31]`, R36 -/
  out     : Vector Byte 32
  /-- `ECODE`, R38 -/
  ecode   : BitVec 2
  /-- `REJ`, R38 -/
  rej     : Bool
  /-- `SEQ`, R38 -/
  seq     : Bool
  /-- `ILL`, R38 -/
  ill     : Bool
  /-- `ABT`, R38 -/
  abt     : Bool
  /-- the parameters the block was built with (00_scope.md R7); no step writes them -/
  params  : Params
  /-- the request the hash engine has captured and not yet answered -/
  hreq    : Option HashReq
  /-- the words the host has still to get accepted, in the order it presents them -/
  cmds    : List Word
  /-- the agents that move next, first first -/
  turns   : List Turn
deriving DecidableEq, Repr

/-- The outcome of a step. -/
abbrev Result := Host.Outcome State Fault Refusal

/-- The machine right after reset (70_reset_and_hazards.md R180): every register of the block is 0. The model's own fields
hold the default parameters, no request, no word and no turn (log entries 1, 3, 5). -/
def State.reset : State where
  st      := 0
  sel     := 0
  half    := false
  r1      := 0
  pcnt    := 0
  bgen    := 0
  acc     := 0
  audit   := Vector.replicate 52 0
  hpend   := false
  rawlen  := 0
  dig0    := 0
  candlen := 0
  outlen  := 0
  out     := Vector.replicate 32 0
  ecode   := 0
  rej     := false
  seq     := false
  ill     := false
  abt     := false
  params  := defaults
  hreq    := none
  cmds    := []
  turns   := []

end Sys2Proof.Machine
end

