-- ==== Sys2Proof/Machine/HashPort.lean ====
section
/-! DEFINITION. The hash port: the request the block drives (20_memory.md R53, 42_finalize.md R140, R141), the message the
engine reads from it, and the lanes of a digest (20_memory.md R54). -/

namespace Sys2Proof.Machine

open Sys2Proof.Config (HashIf)

/-- The SHA-256 padded form of a message of `n` bytes, `n <= 33` (42_finalize.md R141; the padding is from general
knowledge, PRESUMED by the spec: log entry 13). -/
def paddedBlock (m : List Byte) : Bits :=
  bits m ++ [true] ++ zeros (447 - 8 * m.length) ++ bin64 (8 * m.length)

/-- `hreq_msg[263:0]`: message byte `i` on `[263-8i : 256-8i]`, the rest 0 (20_memory.md R53). -/
def hreqMsg (m : List Byte) : BitVec 264 := ofBits 264 (bits m ++ zeros (264 - 8 * m.length))

/-- `hreq_blk[511:0]`, first bit on bit 511: the padded block in BLOCK mode, 0 in MSG mode (20_memory.md R53). -/
def hreqBlk : HashIf → List Byte → BitVec 512
  | .msg, _ => 0
  | .block, m => ofBits 512 (paddedBlock m)

/-- `HashReq(M)` (00_scope.md R12): the request as it transfers. -/
def hashReq (hif : HashIf) (m : List Byte) : HashReq :=
  { len := BitVec.ofNat 6 m.length, msg := hreqMsg m, blk := hreqBlk hif m }

/-- The message a request carries: its first `hreq_len` lanes, byte 0 in the most significant (20_memory.md R53, R64). -/
def HashReq.message (r : HashReq) : List Byte :=
  (List.range r.len.toNat).map fun i => r.msg.extractLsb' (256 - 8 * i) 8

/-- Digest byte `j`, on `hrsp_digest[255-8j : 248-8j]` (20_memory.md R54). -/
def digestByte (digest : BitVec 256) (j : Nat) : Byte := digest.extractLsb' (248 - 8 * j) 8

end Sys2Proof.Machine
end

