-- ==== Sys2Proof/Machine/Operands.lean ====
section
/-! DEFINITION. What commands make of their argument: the range checks, the pair symbol and its 5-bit encoding, and the
audit entry. -/

namespace Sys2Proof.Machine

open Sys2Proof.Config (SymOvf)

/-- The selector check of START: 1..5 (40_control.md R101). -/
def selValid (sel : BitVec 4) : Bool := decide (1 ≤ sel.toNat ∧ sel.toNat ≤ 5)

/-- The die-value check of ROLL: 1..6 (41_collect.md R121). -/
def dieValid (d : BitVec 4) : Bool := decide (1 ≤ d.toNat ∧ d.toNat ≤ 6)

/-- `sel[2:0]` and `d[2:0]`: the low three bits of an argument (40_control.md R101, 41_collect.md R122). -/
def low3 (arg : BitVec 4) : BitVec 3 := arg.extractLsb' 0 3

/-- The pair symbol `(r1 - 1)*6 + (r2 - 1)` (41_collect.md R123). -/
def pairSymbol (r1 r2 : Nat) : Nat := (r1 - 1) * 6 + (r2 - 1)

/-- `sym5(c)` (41_collect.md R124), for each value of `P_SYM_OVF`. -/
def sym5 : SymOvf → Nat → Bits
  | .prefix5, c => (bin5 c).take 5
  | .low5, c => bin5 (c % 32)

/-- The audit entry of a pair, `zext_4(r1) << 4 | zext_4(r2)` (41_collect.md R126). -/
def auditEntry (r1 : BitVec 3) (r2 : BitVec 4) : Byte := r1.setWidth 4 ++ r2

end Sys2Proof.Machine
end

