-- ==== Sys2Proof/Machine/Flags.lean ====
section
/-! DEFINITION. The sticky flags (10_state.md R38, 60_exceptions.md R163), and the event output and status bytes computed
from the registers (10_state.md R39, 20_memory.md R57, R58). -/

namespace Sys2Proof.Machine

/-- The codes of `ST` (10_state.md R22). -/
@[simp] def stIdle : BitVec 3 := 0#3
@[simp] def stCollect : BitVec 3 := 1#3
@[simp] def stHashWait : BitVec 3 := 2#3
@[simp] def stDone : BitVec 3 := 3#3
@[simp] def stError : BitVec 3 := 4#3

/-- The fatal error codes of `ECODE` (10_state.md R38). -/
@[simp] def ecodeCfg : BitVec 2 := 1#2
@[simp] def ecodeHash : BitVec 2 := 2#2

/-- `flag REJ` (60_exceptions.md R163). -/
def State.flagRej (s : State) : State := { s with rej := true }

/-- `flag SEQ` (60_exceptions.md R163). -/
def State.flagSeq (s : State) : State := { s with seq := true }

/-- `flag ILL` (60_exceptions.md R163). -/
def State.flagIll (s : State) : State := { s with ill := true }

/-- `REJ <- 0; SEQ <- 0; ILL <- 0`, common to an accepted START and CANCEL (40_control.md R101, R102). -/
def State.clearSticky (s : State) : State := { s with rej := false, seq := false, ill := false }

/-- `ABT <- v`: CANCEL sets it, an accepted START clears it (10_state.md R38). -/
def State.setAbt (s : State) (v : Bool) : State := { s with abt := v }

/-- `EVT` (10_state.md R39). -/
def State.evt (s : State) : Bool := s.st == stDone || s.st == stError

/-- STATUS (20_memory.md R57), bit 7 first. -/
def State.statusByte (s : State) : Byte :=
  0#1 ++ BitVec.ofBool s.evt ++ BitVec.ofBool s.abt ++ BitVec.ofBool s.hpend ++ BitVec.ofBool s.half ++ s.st

/-- ERR (20_memory.md R58), bit 7 first. -/
def State.errByte (s : State) : Byte :=
  0#3 ++ BitVec.ofBool s.ill ++ BitVec.ofBool s.seq ++ BitVec.ofBool s.rej ++ s.ecode

end Sys2Proof.Machine
end

