-- ==== Sys2Proof/Machine/Ops.lean ====
section
/-! DEFINITION. The shared operations: the checks in front of every step, the acceptance of a command word, raising a
fatal error and the clearing that leaves it, and reset. -/

namespace Sys2Proof.Machine

/-- `ST` holds a state of R22, not 5, 6 or 7. -/
def State.legal (s : State) : Bool := decide (s.st.toNat ≤ 4)

/-- The hold (70_reset_and_hazards.md R188): a cancelled request is still outstanding. -/
def State.held (s : State) : Bool := s.st == stIdle && s.hpend

/-- The `cmd_ready` output (20_memory.md R51): 0 during the hold. In every other state the model, which has no time,
never waits (70_reset_and_hazards.md R192). -/
def State.cmdReady (s : State) : Bool := s.legal && !s.held

/-- The live content of the accumulator, `prefix(ACC, BGEN)` (10_state.md R28). -/
def State.accLive (s : State) : Bits := (bitsOf s.acc).take s.bgen.toNat

/-- The accepted word leaves the host's stream (20_memory.md R51). -/
def State.consume (s : State) : State := { s with cmds := s.cmds.tail }

/-- `raise Fatal(code)` (60_exceptions.md R162): the block's one exception entry. It has no handler, no saved counter and
no mode to change (R161). -/
def State.raiseFatal (s : State) (code : BitVec 2) : State := { s with ecode := code, st := stError }

/-- `ClearRun()` (10_state.md R37): the end of a run, and the way out of ERROR (60_exceptions.md R168). HPEND, REJ, SEQ,
ILL and ABT are not touched. -/
def State.clearRun (s : State) : State :=
  { s with
    sel := 0, half := false, r1 := 0, pcnt := 0, bgen := 0, acc := ofBits 264 (zeros 264)
    audit := Vector.replicate 52 0, rawlen := 0, dig0 := 0, candlen := 0, outlen := 0
    out := Vector.replicate 32 0, ecode := 0, st := stIdle }

/-- Reset (70_reset_and_hazards.md R180 to R182): every register takes its reset value and the engine, reset with the
block, forgets its request. The build's parameters, the host's words and the order of the agents are outside the block and
stay (log entry 6). -/
def State.resetBlock (s : State) : State :=
  { State.reset with params := s.params, cmds := s.cmds, turns := s.turns }

/-- A step of any agent but the platform: the spec gives it a meaning only where `ST` is legal (10_state.md R22). -/
def inLegal (s : State) (next : State) : Result :=
  if s.legal then .next next else .refused .illegalState

/-- What every command word goes through (40_control.md, 60_exceptions.md R166): in the hold it is not accepted, and
nothing changes; else it is accepted, and `rule`, the rest of the command's priority list, gives its whole effect. -/
def accept (rule : State → State) (s : State) : Result :=
  inLegal s (if s.held then s else rule s.consume)

end Sys2Proof.Machine
end

