-- ==== Sys2Proof/Machine/Strength.lean ====
section
/-! DEFINITION. The strength table (10_state.md R24). -/

namespace Sys2Proof.Machine

/-- One row of the strength table, its columns named as R24 names them. -/
structure Strength where
  /-- `S`, entropy bits -/
  s  : Nat
  /-- `EB = S/8`, entropy bytes -/
  eb : Nat
  /-- `CB = S/32`, checksum bits -/
  cb : Nat
  /-- `TB = S + CB`, total_bits_needed -/
  tb : Nat
  /-- `RN = ceil(TB / log2 6)`, rolls_needed -/
  rn : Nat
  /-- `PN = ceil(RN / 2)`, pairs_needed -/
  pn : Nat
  /-- `MB = 5*PN` -/
  mb : Nat
  /-- `RL = 2*PN` -/
  rl : Nat
deriving DecidableEq, Repr

/-- Row 0, no run: the INFO registers read 0 (R24). Its `S` and `RN`, which the table leaves blank and nothing reads, are
written 0. -/
def noStrength : Strength := ⟨0, 0, 0, 0, 0, 0, 0, 0⟩

/-- The table of R24, rows SEL = 0 to 5. -/
def strengthTable : List Strength :=
  [ noStrength,
    ⟨128, 16, 4, 132, 52, 26, 130, 52⟩,
    ⟨160, 20, 5, 165, 64, 32, 160, 64⟩,
    ⟨192, 24, 6, 198, 77, 39, 195, 78⟩,
    ⟨224, 28, 7, 231, 90, 45, 225, 90⟩,
    ⟨256, 32, 8, 264, 103, 52, 260, 104⟩ ]

/-- The row of the current selector. SEL = 6 and 7, which no rule writes (R23), read row 0: DESIGN CHOICE, log entry 8. -/
def strength (sel : BitVec 3) : Strength := strengthTable.getD sel.toNat noStrength

end Sys2Proof.Machine
end

