-- ==== Sys2Proof/Machine/Collect.lean ====
section
/-! DEFINITION. Die collection and packing, the command ROLL (41_collect.md). -/

namespace Sys2Proof.Machine

/-- The first roll of a pair is latched (R122). -/
def State.latchDie (s : State) (d : BitVec 4) : State := { s with r1 := low3 d, half := true }

/-- `k`, how many bits the accumulator still takes from a pair (R125). -/
def State.pairRoom (s : State) : Nat := min 5 ((strength s.sel).tb - s.bgen.toNat)

/-- The accumulator's live content with the pair (R1, d) appended: the leading `k` bits of its symbol's encoding
(R123 to R125). -/
def State.withPair (s : State) (d : BitVec 4) : Bits :=
  s.accLive ++ (sym5 s.params.symOvf (pairSymbol s.r1.toNat d.toNat)).take s.pairRoom

/-- The pair (R1, d) is counted, appended and recorded, and the latch is cleared (R123, R125, R126). `a` is the new live
content of the accumulator and `b` its length. -/
def State.appendPair (s : State) (d : BitVec 4) (a : Bits) (b : Nat) : State :=
  { s with
    audit := s.audit.setIfInBounds s.pcnt.toNat (auditEntry s.r1 d)
    acc := ofBits 264 (a ++ zeros (264 - b))
    bgen := BitVec.ofNat 9 b
    pcnt := BitVec.ofNat 6 (s.pcnt.toNat + 1)
    half := false
    r1 := 0 }

/-- Collection ends on the pair count or on the bit target (R127), read after the append. -/
def State.collectionOver (s : State) : Bool :=
  decide (s.pcnt.toNat = (strength s.sel).pn ∨ (strength s.sel).tb ≤ s.bgen.toNat)

/-- `EndCollect(a, b)` (R127): `a`, the live bits, is cut to whole bytes, and the hash request is issued. -/
def State.endCollect (s : State) (a : Bits) : State :=
  { s with
    rawlen := BitVec.ofNat 6 ((trunc8 a).length / 8)
    hreq := some (hashReq s.params.hashIf (bytes (trunc8 a)))
    hpend := true
    st := stHashWait }

/-- The second roll of a pair (R123 to R127). -/
def State.completePair (s : State) (d : BitVec 4) : State :=
  let a := s.withPair d
  let t := s.appendPair d a (s.bgen.toNat + s.pairRoom)
  if t.collectionOver then t.endCollect a else t

/-- ROLL once accepted, its checks in the order of 60_exceptions.md R166 (R120). -/
def rollRule (d : BitVec 4) (s : State) : State :=
  if s.st = stCollect then
    if dieValid d then
      if s.half then s.completePair d else s.latchDie d
    else s.flagRej
  else s.flagSeq

/-- ROLL (R120). -/
def execRoll (d : BitVec 4) (s : State) : Result := accept (rollRule d) s

end Sys2Proof.Machine
end

