-- ==== Sys2Proof/Machine/Control.lean ====
section
/-! DEFINITION. The control commands NOP, START, CANCEL and ACK (40_control.md), and an illegal word (30_encoding.md R83).
Each rule is what its command does once it is accepted; `exec…` is the command's whole step. -/

namespace Sys2Proof.Machine

/-- NOP (R100): nothing. -/
def nopRule (s : State) : State := s

/-- START in IDLE (R101): the flags are cleared whatever the selector; a selector outside 1..5 is the configuration error
(60_exceptions.md R164). -/
def startRun (sel : BitVec 4) (s : State) : State :=
  if selValid sel then { s with sel := low3 sel, st := stCollect } else s.raiseFatal ecodeCfg

/-- START (R101). -/
def startRule (sel : BitVec 4) (s : State) : State :=
  if s.st = stIdle then startRun sel (s.clearSticky.setAbt false) else s.flagSeq

/-- CANCEL (R102). -/
def cancelRule (s : State) : State := (s.clearRun.clearSticky).setAbt true

/-- ACK (R103). -/
def ackRule (s : State) : State :=
  if s.st = stDone ∨ s.st = stError then s.clearRun else s.flagSeq

/-- An accepted illegal word does `flag ILL` and nothing else (30_encoding.md R83). -/
def illegalRule (s : State) : State := s.flagIll

/-- NOP (R100). -/
def execNop (s : State) : Result := accept nopRule s

/-- START (R101). -/
def execStart (sel : BitVec 4) (s : State) : Result := accept (startRule sel) s

/-- CANCEL (R102). -/
def execCancel (s : State) : Result := accept cancelRule s

/-- ACK (R103). -/
def execAck (s : State) : Result := accept ackRule s

/-- The host's step with an illegal word (30_encoding.md R83). -/
def acceptIllegal (s : State) : Result := accept illegalRule s

end Sys2Proof.Machine
end

