-- ==== Sys2Proof/Machine/Dispatch.lean ====
section
/-! DEFINITION. One arm per command. -/

namespace Sys2Proof.Machine

/-- The host's whole step with one command: the hold, the acceptance and the command's effect. -/
def exec (i : Instr) (s : State) : Host.Outcome State Fault Refusal :=
  match i with
  | .nop => Sys2Proof.Machine.execNop s
  | .start sel => Sys2Proof.Machine.execStart sel s
  | .roll d => Sys2Proof.Machine.execRoll d s
  | .cancel => Sys2Proof.Machine.execCancel s
  | .ack => Sys2Proof.Machine.execAck s

end Sys2Proof.Machine
end

