-- ==== Sys2Proof/Machine/Finalize.lean ====
section
/-! DEFINITION. The hash response: checksum, second truncation, canonicalisation and result (42_finalize.md). -/

namespace Sys2Proof.Machine

/-- The checksum bits, the first `CB` bits of the digest (R143). -/
def checksum (digest : BitVec 256) (cb : Nat) : Bits := (bitsOf digest).take cb

/-- `raw_entropy_bits`, `prefix(ACC, 8*RAWLEN)` (R142). -/
def State.rawBits (s : State) : Bits := (bitsOf s.acc).take (8 * s.rawlen.toNat)

/-- The candidate (R144). -/
def candidate (raw ck : Bits) : List Byte := bytes (trunc8 (raw ++ ck))

/-- `|L - t|`. -/
def lenDist (l t : Nat) : Nat := (l - t) + (t - l)

/-- Whether target `t` comes before target `u` for a candidate of `l` bytes, in the order of the pair `(|L - t|, t)`
(R145). -/
def closer (l t u : Nat) : Bool :=
  decide (lenDist l t < lenDist l u ∨ lenDist l t = lenDist l u ∧ t < u)

/-- The canonical lengths (R145). -/
def canonTargets : List Nat := [16, 20, 24, 28, 32]

/-- `canon(L)` (R145): the target that comes first in the order of `(|L - t|, t)`. -/
def canon (l : Nat) : Nat := canonTargets.foldl (fun best t => if closer l t best then t else best) 16

/-- `fit(cand, t)` (R146): cut from the end, or padded on the right with zero bytes. -/
def fit (cand : List Byte) (t : Nat) : List Byte :=
  if t ≤ cand.length then cand.take t else cand ++ List.replicate (t - cand.length) 0

/-- The result buffer: the bytes of `out`, then `0x00` (R142). -/
def outBuffer (out : List Byte) : Vector Byte 32 := Vector.ofFn fun n => out.getD n.val 0

/-- A successful response in HASH_WAIT (R142). -/
def State.finish (s : State) (digest : BitVec 256) : State :=
  let cand := candidate s.rawBits (checksum digest (strength s.sel).cb)
  let t := canon cand.length
  { s with
    dig0 := digestByte digest 0
    candlen := BitVec.ofNat 6 cand.length
    outlen := BitVec.ofNat 6 t
    out := outBuffer (fit cand t)
    st := stDone }

/-- The request is answered: the engine holds it no more and `HPEND <- 0` (R142). -/
def State.answered (s : State) : State := { s with hpend := false, hreq := none }

/-- HASH_RSP(D, err) (R142): discarded unless the block waits for it; a failure is `Fatal(HASH)` (60_exceptions.md R165). -/
def hashRsp (digest : BitVec 256) (err : Bool) (s : State) : State :=
  if s.st = stHashWait then
    if err then s.answered.raiseFatal ecodeHash else s.answered.finish digest
  else s.answered

/-- When the hash engine has a step (R142): a request is outstanding, the engine holds it, and `err = 1` only where
`P_HASH_FAIL` allows it. -/
def State.engineReady (s : State) (err : Bool) : Bool :=
  s.hpend && s.hreq.isSome && (!err || s.params.hashFail)

/-- The digest the engine returns: `SHA256(M)` for the message `M` of the request it holds (R140, R142). -/
def HashReq.digest (r : HashReq) : BitVec 256 := Config.sha256 r.message

/-- The hash engine's step. Where it has none, its turn is passed over (log entry 4). -/
def engineStep (err : Bool) (s : State) : Result :=
  inLegal s
    (match s.hreq with
    | some r => if s.engineReady err then hashRsp r.digest err s else s
    | none => s)

end Sys2Proof.Machine
end

