-- ==== Sys2Proof/Machine/Agents.lean ====
section
/-! DEFINITION. The steps of the agents (00_scope.md R5): which one moves, and what its move is. -/

namespace Sys2Proof.Machine

/-- What one word does to the block: a command by its rule, an illegal word by R83. -/
def offer (w : Word) (s : State) : Result :=
  match decode w with
  | .instr i => exec i s
  | .illegal _ => acceptIllegal s

/-- The host's step: it offers the first of its words (20_memory.md R51). A host with no word to offer has no step, and its
turn is passed over (log entry 4). -/
def hostStep (s : State) : Result :=
  match s.cmds with
  | [] => inLegal s s
  | w :: _ => offer w s

/-- The reset step (70_reset_and_hazards.md R181, R182), taken in every state. -/
def resetStep (s : State) : Result := .next s.resetBlock

/-- One turn, already taken from the list: the step of the agent it names. -/
def agentStep : Turn → State → Result
  | .host, s => hostStep s
  | .engine err, s => engineStep err s
  | .rst, s => resetStep s

/-- One step of the machine: the agent whose turn is first moves. With no turn left the block waits, and keeps all its
registers (60_exceptions.md R177; log entry 4). -/
def machineStep (s : State) : Result :=
  match s.turns with
  | [] => inLegal s s
  | t :: ts => agentStep t { s with turns := ts }

/-- The host has the next turn and offers `w` first. -/
def State.offerNext (s : State) (w : Word) : State :=
  { s with cmds := w :: s.cmds, turns := .host :: s.turns }

end Sys2Proof.Machine
end

