-- ==== Sys2Proof/Machine/Step.lean ====
section
/-! DEFINITION. The step function, and how a command word is put where the next step takes it. -/

namespace Sys2Proof.Machine

/-- One step: of the host, of the hash engine, or of reset (00_scope.md R5, R13). -/
def step (s : State) : Host.Outcome State Fault Refusal := machineStep s

/-- `s` with the command word of `nbits` bits `w` as the next word the host offers, on the very next step (log
entry 9). -/
def State.withFetchWord (s : State) (nbits w : Nat) : State :=
  s.offerNext (BitVec.ofNat 8 (w % 2 ^ nbits))

end Sys2Proof.Machine
end

