-- ==== Sys2Proof/Machine/ReadPort.lean ====
section
/-! DEFINITION. The read port: 256 byte addresses, read-only, no side effects (20_memory.md R52, R55 to R63). It is a
function of the state, so a read changes nothing (R55). -/

namespace Sys2Proof.Machine

/-- The 16 bytes at 0x00 to 0x0F (R56 to R59). -/
def State.infoBytes (s : State) : List Byte :=
  let row := strength s.sel
  [ s.statusByte,
    s.errByte,
    s.sel.setWidth 8,
    BitVec.ofNat 8 row.eb,
    BitVec.ofNat 8 row.cb,
    BitVec.ofNat 8 row.pn,
    s.pcnt.setWidth 8,
    s.bgen.extractLsb' 0 8,
    (s.bgen.extractLsb' 8 1).setWidth 8,
    (BitVec.ofNat 9 row.tb).extractLsb' 0 8,
    ((BitVec.ofNat 9 row.tb).extractLsb' 8 1).setWidth 8,
    s.r1.setWidth 8,
    s.rawlen.setWidth 8,
    s.candlen.setWidth 8,
    s.outlen.setWidth 8,
    s.dig0 ]

/-- Byte `k` of the accumulator, `ACCREG[263-8k : 256-8k]` (R62). -/
def State.accByte (s : State) (k : Nat) : Byte := s.acc.extractLsb' (256 - 8 * k) 8

/-- `RegRead(a)` (R55), by the address map (R56); reserved addresses read 0 (R63). -/
def regRead (a : BitVec 8) (s : State) : Byte :=
  let n := a.toNat
  if n < 0x10 then s.infoBytes.getD n 0
  else if n < 0x20 then 0
  else if n < 0x40 then s.out[n - 0x20]?.getD 0
  else if n < 0x74 then s.audit[n - 0x40]?.getD 0
  else if n < 0x80 then 0
  else if n < 0xA1 then s.accByte (n - 0x80)
  else 0

end Sys2Proof.Machine
end

