-- ==== Sys2Proof/Safety.lean ====
section
/-! DEFINITION. The terms the statements use: when a word is accepted, the invariants of 10_state.md R40 with the bounds of
R30 and R31, and the symbol stream of a run (41_collect.md R129). -/

namespace Sys2Proof.Machine

/-- `ST` is one of the five states and the block is not in the hold: an offered word is accepted (20_memory.md R51,
70_reset_and_hazards.md R188). -/
def Accepts (s : State) : Prop := s.st.toNat ≤ 4 ∧ ¬(s.st = 0#3 ∧ s.hpend = true)

/-- Every register that ClearRun writes holds the value ClearRun gives it, ST apart (10_state.md R37). -/
structure RunCleared (s : State) : Prop where
  sel     : s.sel = 0#3
  half    : s.half = false
  r1      : s.r1 = 0#3
  pcnt    : s.pcnt = 0#6
  bgen    : s.bgen = 0#9
  acc     : s.acc = 0#264
  audit   : ∀ n, n < 52 → s.audit[n]? = some 0
  rawlen  : s.rawlen = 0#6
  dig0    : s.dig0 = 0#8
  candlen : s.candlen = 0#6
  outlen  : s.outlen = 0#6
  out     : ∀ n, n < 32 → s.out[n]? = some 0
  ecode   : s.ecode = 0#2

/-- No result is held (10_state.md R34 to R36). -/
structure NoResult (s : State) : Prop where
  dig0    : s.dig0 = 0#8
  candlen : s.candlen = 0#6
  outlen  : s.outlen = 0#6
  out     : ∀ n, n < 32 → s.out[n]? = some 0

/-- Whether a byte has both nibbles in 1..6, as a written audit entry has (10_state.md R29). -/
def auditEntryOk (e : Byte) : Bool :=
  decide (1 ≤ (e.extractLsb' 4 4).toNat ∧ (e.extractLsb' 4 4).toNat ≤ 6 ∧
    1 ≤ (e.extractLsb' 0 4).toNat ∧ (e.extractLsb' 0 4).toNat ≤ 6)

/-- Collection is over and the run holds its final counts: HASH_WAIT, DONE, or ERROR after a hash failure. -/
def Collected (s : State) : Prop := s.st = 2#3 ∨ s.st = 3#3 ∨ (s.st = 4#3 ∧ s.ecode = 2#2)

/-- The invariants of R40 (a) to (i), and beside them what they need to be kept by every step: the bounds of R30, the end
counts of R31, and the engine's captured request. -/
structure BlockInv (s : State) : Prop where
  /-- R22 -/
  legal      : s.st.toNat ≤ 4
  /-- R40 (a) -/
  idle       : s.st = 0#3 → RunCleared s
  /-- R40 (b) -/
  waits      : s.st = 2#3 → s.hpend = true
  /-- R40 (c) -/
  accTail    : ∀ i, i < 264 → s.bgen.toNat ≤ i → s.acc.getMsbD i = false
  /-- R40 (d), entries not yet written -/
  auditTail  : ∀ n, n < 52 → s.pcnt.toNat ≤ n → s.audit[n]? = some 0
  /-- R40 (d), entries written -/
  auditPairs : ∀ n, n < 52 → n < s.pcnt.toNat → (s.audit[n]?.map auditEntryOk) = some true
  /-- R40 (e) -/
  noHalf     : s.half = false → s.r1 = 0#3
  /-- R40 (e) and R25 -/
  halfPair   : s.half = true → s.st = 1#3 ∧ 1 ≤ s.r1.toNat ∧ s.r1.toNat ≤ 6
  /-- R40 (f) -/
  fivePerPair : s.bgen.toNat = 5 * s.pcnt.toNat
  /-- R40 (g) -/
  running    : s.st = 1#3 ∨ s.st = 2#3 ∨ s.st = 3#3 → 1 ≤ s.sel.toNat ∧ s.sel.toNat ≤ 5
  /-- R40 (h) -/
  doneIff    : s.st = 3#3 ↔ s.outlen ≠ 0#6
  /-- R40 (h) -/
  errorIff   : s.st = 4#3 ↔ s.ecode ≠ 0#2
  /-- R40 (i): no state but IDLE is entered with ABT set -/
  aborted    : s.abt = true → s.st = 0#3
  /-- R38: ECODE is never 3 -/
  codeLegal  : s.ecode ≠ 3#2
  /-- R32 and R74: a request is outstanding only in HASH_WAIT, or in IDLE after a CANCEL -/
  pending    : s.hpend = true → s.st = 0#3 ∨ s.st = 2#3
  /-- the engine holds a request exactly while HPEND is 1 -/
  captured   : s.hreq.isSome = s.hpend
  /-- R62, R127, R140: in HASH_WAIT the engine's request is for ACC bytes 0 to RAWLEN-1 -/
  request    : s.st = 2#3 → s.hreq = some (hashReq s.params.hashIf (bytes s.rawBits))
  /-- R26, R30 (c): a run still collecting is short of its pair count -/
  collecting : s.st = 1#3 → s.pcnt.toNat < (strength s.sel).pn ∧ s.rawlen = 0#6
  /-- R31 (a), R128: what a collected run holds -/
  collected  : Collected s →
    1 ≤ s.sel.toNat ∧ s.sel.toNat ≤ 5 ∧ s.pcnt.toNat = (strength s.sel).pn ∧ s.rawlen.toNat = (strength s.sel).eb
  /-- R164: after a configuration error no run was begun -/
  badStart   : s.ecode = 1#2 → s.sel = 0#3 ∧ s.pcnt = 0#6 ∧ s.rawlen = 0#6
  /-- R36, R187: outside DONE no result is held -/
  noResult   : s.st ≠ 3#3 → NoResult s

/-- The symbol of an audit entry (10_state.md R29). -/
def entrySymbol (e : Byte) : Nat :=
  ((e.extractLsb' 4 4).toNat - 1) * 6 + ((e.extractLsb' 0 4).toNat - 1)

/-- The symbol stream of the pairs recorded so far, `sym5(c_0) ++ sym5(c_1) ++ ...` (41_collect.md R129). -/
def State.stream (s : State) : Bits :=
  (s.audit.toList.take s.pcnt.toNat).flatMap fun e => sym5 s.params.symOvf (entrySymbol e)

/-- R129 as a law of states: the accumulator's live content is the symbol stream of the recorded pairs. -/
def StreamInv (s : State) : Prop := s.accLive = s.stream

/-- R147 as a law of states: in DONE the result is the first `S` bits of the symbol stream, as bytes, followed by zero
bytes, and the lengths are those of the table. -/
def ResultInv (s : State) : Prop :=
  s.st = 3#3 →
    s.out.toList = bytes (s.stream.take (strength s.sel).s) ++ List.replicate (32 - (strength s.sel).eb) 0 ∧
    s.outlen.toNat = (strength s.sel).eb ∧
    s.candlen.toNat = (strength s.sel).eb + (if (strength s.sel).cb = 8 then 1 else 0) ∧
    s.dig0 = digestByte (Config.sha256 (bytes (s.stream.take (strength s.sel).s))) 0

/-- How many valid die values the current run has taken (41_collect.md R128 (c)). -/
def State.taken (s : State) : Nat := 2 * s.pcnt.toNat + s.half.toNat

/-- The die values of a list offered as ROLL commands one after another. -/
def rollAll : List (BitVec 4) → State → Result
  | [], s => .next s
  | d :: ds, s =>
    match exec (.roll d) s with
    | .next t => rollAll ds t
    | .fault r => .fault r
    | .refused r => .refused r

/-- The symbol stream of a sequence of die values, taken two at a time (41_collect.md R129). -/
def diceStream (p : Config.SymOvf) : List (BitVec 4) → Bits
  | r1 :: r2 :: ds => sym5 p (pairSymbol r1.toNat r2.toNat) ++ diceStream p ds
  | _ => []

/-- The registers of the block, without the four fields that are the model's own (log entries 1, 3, 5). -/
structure SameRegisters (s t : State) : Prop where
  st      : s.st = t.st
  sel     : s.sel = t.sel
  half    : s.half = t.half
  r1      : s.r1 = t.r1
  pcnt    : s.pcnt = t.pcnt
  bgen    : s.bgen = t.bgen
  acc     : s.acc = t.acc
  audit   : s.audit = t.audit
  hpend   : s.hpend = t.hpend
  rawlen  : s.rawlen = t.rawlen
  dig0    : s.dig0 = t.dig0
  candlen : s.candlen = t.candlen
  outlen  : s.outlen = t.outlen
  out     : s.out = t.out
  ecode   : s.ecode = t.ecode
  rej     : s.rej = t.rej
  seq     : s.seq = t.seq
  ill     : s.ill = t.ill
  abt     : s.abt = t.abt

end Sys2Proof.Machine
end

