-- ==== Sys2Proof/Certificates/Slice0/Obligations.lean ====
section
/-! DEFINITION. The statements for the provers, from the numbered rules of spec/. Statements over every state name the
invariant `BlockInv` (10_state.md R40) where they need one; that `BlockInv` holds at reset and is kept by every step is stated too. -/

open Sys2Proof Sys2Proof.Machine

/-! ## Encoding -/

/-- 30_encoding.md R82: the opcode map, by its mask-and-match rows and its illegal ranges. -/
def Obligations.OpcodeMapDecodes : Prop :=
  ∀ w : Word,
    (w &&& 0xFF = 0x00 → decode w = .instr .nop) ∧
    (w &&& 0xF0 = 0x10 → decode w = .instr (.start (w.extractLsb' 0 4))) ∧
    (w &&& 0xF0 = 0x20 → decode w = .instr (.roll (w.extractLsb' 0 4))) ∧
    (w &&& 0xFF = 0x30 → decode w = .instr .cancel) ∧
    (w &&& 0xFF = 0x40 → decode w = .instr .ack) ∧
    (0x01 ≤ w.toNat ∧ w.toNat ≤ 0x0F ∨ 0x31 ≤ w.toNat ∧ w.toNat ≤ 0x3F ∨ 0x41 ≤ w.toNat ∧ w.toNat ≤ 0x4F →
      decode w = .illegal .argNotZero) ∧
    (0x50 ≤ w.toNat → decode w = .illegal .reservedOpcode) ∧
    opcodeRows.Pairwise (fun r q => ¬(r.takes w = true ∧ q.takes w = true)) ∧
    ((∃ r ∈ opcodeRows, r.takes w = true) ↔ ∃ i, decode w = .instr i)

/-- R80, R82: a command's word decodes to it, and a word that decodes to a command is that command's word. -/
def Obligations.EncodeDecodeAgree : Prop :=
  (∀ i : Instr, i.wf = true → decode (encode i) = .instr i) ∧
  (∀ (w : Word) (i : Instr), decode w = .instr i → encode i = w ∧ i.wf = true)

/-- Words written out from R82 and R87 decode to the commands they stand for. -/
def Obligations.WrittenWordsDecode : Prop :=
  decode 0b00000000 = .instr .nop ∧ decode 0b00010001 = .instr (.start 1) ∧ decode 0b00011111 = .instr (.start 15) ∧
  decode 0b00100110 = .instr (.roll 6) ∧ decode 0b00100000 = .instr (.roll 0) ∧ decode 0b00110000 = .instr .cancel ∧
  decode 0b01000000 = .instr .ack ∧ decode 0b00110001 = .illegal .argNotZero ∧ decode 0b01010000 = .illegal .reservedOpcode

/-- R87, R88: the lines of the assembler, every operand 0..15, and the expansions of its pseudo-instructions. That lines are
abstract syntax is the model's choice (log entry 12). -/
def Obligations.AssemblerExpandsLines : Prop :=
  (∀ n, n ≤ 15 →
    (Asm.start n).assemble = [0x10 ||| BitVec.ofNat 8 n] ∧ (Asm.roll n).assemble = [0x20 ||| BitVec.ofNat 8 n]) ∧
  (Asm.start 1).assemble = [0x11] ∧ (Asm.roll 6).assemble = [0x26] ∧ Asm.cancel.assemble = [0x30] ∧
  Asm.nop.assemble = [0x00] ∧ Asm.ack.assemble = [0x40] ∧
  (∀ w : Word, (Asm.word w.toNat).assemble = [w]) ∧
  (∀ a b, (Asm.pair a b).assemble = (Asm.seq (.roll a) (.roll b)).assemble) ∧
  (∀ ds, (Asm.rolls ds).assemble = ds.flatMap fun d => (Asm.roll d).assemble) ∧
  (∀ body, (Asm.rep 0 body).assemble = []) ∧
  (∀ n body, (Asm.rep (n + 1) body).assemble = (Asm.seq body (.rep n body)).assemble) ∧
  (∀ a, (Asm.read a).assemble = []) ∧ Asm.waitEvt.assemble = []

/-- A command at the head of the host's words, on the host's turn, is run by `exec`. What step adds is that the turn is
used up; that the accepted word leaves the host's words is part of `exec` and stated of each command. The lists of words and
turns are the model's choice (log entry 3). -/
def Obligations.StepRunsDecodedCommand : Prop :=
  ∀ (s : State) (w : Word) (ws : List Word) (ts : List Turn) (i : Instr),
    s.turns = .host :: ts → s.cmds = w :: ws → decode w = .instr i → step s = exec i { s with turns := ts }

/-- 30_encoding.md R83: there are 221 illegal words, and an accepted one does `flag ILL` and nothing else; while commands
are held it is not accepted (70_reset_and_hazards.md R188), and that the host's turn then passes is the model's choice (log
entry 17). -/
def Obligations.IllegalWordOnlyFlags : Prop :=
  ((List.range 256).filter fun n => (decode (BitVec.ofNat 8 n)).instr? = none).length = 221 ∧
  ∀ (s : State) (w : Word) (ws : List Word) (ts : List Turn) (why : Illegal),
    s.turns = .host :: ts → s.cmds = w :: ws → decode w = .illegal why →
    (Accepts s → step s = .next { s with turns := ts, cmds := ws, ill := true }) ∧
    (s.st = 0#3 → s.hpend = true → step s = .next { s with turns := ts })

/-! ## Control commands -/

/-- 40_control.md R100, NOP. -/
def Obligations.NopDoesNothing : Prop :=
  encode .nop = 0x00 ∧
  (∀ w : Word, 0x01 ≤ w.toNat → w.toNat ≤ 0x0F → ∃ why, decode w = .illegal why) ∧
  ∀ s : State, Accepts s → exec .nop s = .next { s with cmds := s.cmds.tail }

/-- 40_control.md R101, START. That the held command answers the same state is the model's choice (log entry 17; R12 and
R188 say that the host has no step). -/
def Obligations.StartBeginsRun : Prop :=
  (∀ sel : BitVec 4, encode (.start sel) = 0x10 ||| sel.setWidth 8) ∧
  [1, 2, 3, 4, 5].map (fun sel => (strength sel).s) = [128, 160, 192, 224, 256] ∧
  (∀ (sel : BitVec 4) (s : State), Accepts s → s.st ≠ 0#3 →
    exec (.start sel) s = .next { s with cmds := s.cmds.tail, seq := true }) ∧
  (∀ (sel : BitVec 4) (s : State), s.st = 0#3 → s.hpend = true → exec (.start sel) s = .next s) ∧
  (∀ (sel : BitVec 4) (s : State), s.st = 0#3 → s.hpend = false → 1 ≤ sel.toNat ∧ sel.toNat ≤ 5 →
    exec (.start sel) s = .next { s with
      cmds := s.cmds.tail, rej := false, seq := false, ill := false, abt := false,
      sel := sel.extractLsb' 0 3, st := 1 }) ∧
  (∀ (sel : BitVec 4) (s : State), s.st = 0#3 → s.hpend = false → ¬(1 ≤ sel.toNat ∧ sel.toNat ≤ 5) →
    exec (.start sel) s = .next { s with
      cmds := s.cmds.tail, rej := false, seq := false, ill := false, abt := false, ecode := 1, st := 4 }) ∧
  (∃ t, exec (.start 3) State.reset = .next t ∧ t.sel = 3#3 ∧ t.st = 1#3 ∧ regRead 0x05 t = 0x27 ∧ regRead 0x09 t = 0xC6)

/-- 40_control.md R102, CANCEL, with the ClearRun of 10_state.md R37; an answer to a request it leaves outstanding is
discarded. That the held command answers the same state is the model's choice (log entry 17; R12 and R188 say that the host
has no step). -/
def Obligations.CancelAbortsRun : Prop :=
  encode .cancel = 0x30 ∧
  (∀ s : State, s.st = 0#3 → s.hpend = true → exec .cancel s = .next s) ∧
  ∀ s : State, Accepts s →
    ∃ t, exec .cancel s = .next t ∧
      t = { s with
        cmds := s.cmds.tail, st := 0, sel := 0, half := false, r1 := 0, pcnt := 0, bgen := 0, acc := 0,
        audit := Vector.replicate 52 0, rawlen := 0, dig0 := 0, candlen := 0, outlen := 0,
        out := Vector.replicate 32 0, ecode := 0, rej := false, seq := false, ill := false, abt := true } ∧
      regRead 0x00 t = (if s.hpend then 0x30 else 0x20) ∧ t.cmdReady = !s.hpend ∧
      ∀ digest err, hashRsp digest err t = { t with hpend := false, hreq := none }

/-- 40_control.md R103, ACK. -/
def Obligations.AckClearsEndState : Prop :=
  encode .ack = 0x40 ∧
  (∀ s : State, s.st = 3#3 ∨ s.st = 4#3 →
    exec .ack s = .next { s with
      cmds := s.cmds.tail, st := 0, sel := 0, half := false, r1 := 0, pcnt := 0, bgen := 0, acc := 0,
      audit := Vector.replicate 52 0, rawlen := 0, dig0 := 0, candlen := 0, outlen := 0,
      out := Vector.replicate 32 0, ecode := 0 }) ∧
  (∀ s : State, Accepts s → ¬(s.st = 3#3 ∨ s.st = 4#3) →
    exec .ack s = .next { s with cmds := s.cmds.tail, seq := true }) ∧
  (∀ s t : State, BlockInv s → s.st = 3#3 → exec .ack s = .next t → regRead 0x00 t = 0x00)

/-- 40_control.md R104 and 60_exceptions.md R166: a legal command in a state that does not take it does `flag SEQ` and
nothing else, whatever its argument. -/
def Obligations.CommandOutOfPlaceFlagsSeq : Prop :=
  ∀ (i : Instr) (s : State), Accepts s →
    (match i with
      | .nop => False
      | .start _ => s.st ≠ 0#3
      | .roll _ => s.st ≠ 1#3
      | .cancel => False
      | .ack => s.st ≠ 3#3 ∧ s.st ≠ 4#3) →
    exec i s = .next { s with cmds := s.cmds.tail, seq := true }

/-- The hold (70_reset_and_hazards.md R188): no word is accepted, no command lifts it, and the engine's answer or reset
does. That a held command answers the same state, and the host's turn passes, is the model's choice (log entry 17). -/
def Obligations.HoldUntilAnswered : Prop :=
  ∀ s : State, s.st = 0#3 → s.hpend = true →
    s.cmdReady = false ∧
    (∀ i, exec i s = .next s) ∧
    (∀ ts, s.turns = .host :: ts → step s = .next { s with turns := ts }) ∧
    (∀ ts err, s.turns = .engine err :: ts → s.hreq.isSome = true → (err = true → s.params.hashFail = true) →
      ∃ t, step s = .next t ∧ t = { s with turns := ts, hpend := false, hreq := none } ∧ t.cmdReady = true) ∧
    (∀ ts, s.turns = .rst :: ts → ∃ t, step s = .next t ∧ t.cmdReady = true)

/-! ## Collection -/

/-- 41_collect.md R121: an out-of-range die value only sets REJ. -/
def Obligations.BadDieOnlyFlagsRej : Prop :=
  ∀ (d : BitVec 4) (s : State), s.st = 1#3 → ¬(1 ≤ d.toNat ∧ d.toNat ≤ 6) →
    exec (.roll d) s = .next { s with cmds := s.cmds.tail, rej := true }

/-- 41_collect.md R122: the first roll of a pair is held. -/
def Obligations.FirstRollIsLatched : Prop :=
  ∀ (d : BitVec 4) (s : State), s.st = 1#3 → s.half = false → 1 ≤ d.toNat → d.toNat ≤ 6 →
    ∃ t, exec (.roll d) s = .next t ∧ t.r1.toNat = d.toNat ∧
      t = { s with cmds := s.cmds.tail, r1 := d.extractLsb' 0 3, half := true }

/-- 41_collect.md R123, R125 and the audit write of R126: the second roll of a pair, wherever the latch, PCNT and BGEN are
in the ranges of 10_state.md R25 to R27, also where the accumulator has room for fewer than 5 bits. The frame leaves out the
four fields that the end of collection may also write (EndOfCollection states those). -/
def Obligations.SecondRollPacksPair : Prop :=
  ∀ (d : BitVec 4) (s : State), s.st = 1#3 → s.half = true → 1 ≤ s.r1.toNat → s.r1.toNat ≤ 6 →
    s.pcnt.toNat < 52 → s.bgen.toNat ≤ (strength s.sel).tb → 1 ≤ d.toNat → d.toNat ≤ 6 →
    ∃ t, exec (.roll d) s = .next t ∧
      let c := (s.r1.toNat - 1) * 6 + (d.toNat - 1)
      let k := min 5 ((strength s.sel).tb - s.bgen.toNat)
      c ≤ 35 ∧
      t.pcnt.toNat = s.pcnt.toNat + 1 ∧ t.half = false ∧ t.r1 = 0#3 ∧
      t.bgen.toNat = s.bgen.toNat + k ∧ t.bgen.toNat ≤ (strength s.sel).tb ∧
      (bitsOf t.acc).take t.bgen.toNat = (bitsOf s.acc).take s.bgen.toNat ++ (sym5 s.params.symOvf c).take k ∧
      (∀ i, i < 264 → s.bgen.toNat + k ≤ i → t.acc.getMsbD i = false) ∧
      t.audit[s.pcnt.toNat]? = some ((s.r1.setWidth 8 <<< 4) ||| d.setWidth 8) ∧
      (∀ n, n ≠ s.pcnt.toNat → t.audit[n]? = s.audit[n]?) ∧
      { t with
        pcnt := s.pcnt, half := s.half, r1 := s.r1, bgen := s.bgen, acc := s.acc, audit := s.audit,
        st := s.st, rawlen := s.rawlen, hpend := s.hpend, hreq := s.hreq } = { s with cmds := s.cmds.tail }

/-- 41_collect.md R127: when collection ends, what the end writes, that the accumulator keeps all its bits, and that nothing
else issues a request. -/
def Obligations.EndOfCollection : Prop :=
  (∀ (d : BitVec 4) (s t : State), s.st = 1#3 → s.half = true → 1 ≤ s.r1.toNat → s.r1.toNat ≤ 6 →
    s.pcnt.toNat < 52 → s.bgen.toNat ≤ (strength s.sel).tb → 1 ≤ d.toNat → d.toNat ≤ 6 →
    exec (.roll d) s = .next t →
    (t.pcnt.toNat = (strength s.sel).pn ∨ (strength s.sel).tb ≤ t.bgen.toNat →
      t.st = 2#3 ∧ t.hpend = true ∧ t.rawlen.toNat = t.bgen.toNat / 8 ∧
      t.hreq = some (hashReq s.params.hashIf (bytes ((bitsOf t.acc).take (8 * (t.bgen.toNat / 8))))) ∧
      (bitsOf t.acc).take t.bgen.toNat = (bitsOf s.acc).take s.bgen.toNat ++
        (sym5 s.params.symOvf (pairSymbol s.r1.toNat d.toNat)).take (min 5 ((strength s.sel).tb - s.bgen.toNat))) ∧
    (¬(t.pcnt.toNat = (strength s.sel).pn ∨ (strength s.sel).tb ≤ t.bgen.toNat) →
      t.st = 1#3 ∧ t.hpend = s.hpend ∧ t.rawlen = s.rawlen ∧ t.hreq = s.hreq)) ∧
  (∀ s t : State, step s = .next t → t.hreq.isSome = true → t.hreq ≠ s.hreq →
    s.st = 1#3 ∧ t.st = 2#3 ∧ s.half = true ∧
    ∃ ts w ws d, s.turns = .host :: ts ∧ s.cmds = w :: ws ∧ decode w = .instr (.roll d))

/-- 41_collect.md R124: the symbol encoding under both parameter values. -/
def Obligations.SymbolEncoding : Prop :=
  (∀ c, c ≤ 31 → ∀ p, sym5 p c = numeral 5 c) ∧
  (∀ c, 32 ≤ c → c ≤ 35 → bin5 c = numeral 6 c ∧ sym5 .prefix5 c = numeral 5 (c / 2) ∧ sym5 .low5 c = numeral 5 (c - 32)) ∧
  (∀ c e, c ≤ 31 → e ≤ 31 → ∀ p, sym5 p c = sym5 p e → c = e) ∧
  (∀ p c, (sym5 p c).length = 5)

/-- 41_collect.md R130: the symbol of every pair, its encoding under both parameter values, and how many of the 36 pairs give
each 5-bit pattern. -/
def Obligations.SymbolTable : Prop :=
  (∀ c, c < 36 → sym5 .prefix5 c = numeral 5 (if c < 32 then c else c / 2)) ∧
  (∀ c, c < 36 → sym5 .low5 c = numeral 5 (if c < 32 then c else c - 32)) ∧
  (∀ v, v < 32 →
    ((List.range 36).filter fun c => sym5 .prefix5 c = numeral 5 v).length = (if v = 16 ∨ v = 17 then 3 else 1)) ∧
  (∀ v, v < 32 →
    ((List.range 36).filter fun c => sym5 .low5 c = numeral 5 v).length = (if v < 4 then 2 else 1)) ∧
  (∀ c, c < 36 → pairSymbol (c / 6 + 1) (c % 6 + 1) = c)

/-- 10_state.md R24: the strength table's columns are its formulas. `RN`, the ceiling of `TB / log2 6`, is the least number
of rolls whose `6^RN` outcomes are at least `2^TB`. -/
def Obligations.StrengthTableFormulas : Prop :=
  strength 0 = ⟨0, 0, 0, 0, 0, 0, 0, 0⟩ ∧
  ∀ sel : BitVec 3, 1 ≤ sel.toNat → sel.toNat ≤ 5 →
    let r := strength sel
    r.s = 96 + 32 * sel.toNat ∧ r.eb = r.s / 8 ∧ r.cb = r.s / 32 ∧ r.tb = r.s + r.cb ∧
    2 ^ r.tb ≤ 6 ^ r.rn ∧ 6 ^ (r.rn - 1) < 2 ^ r.tb ∧
    r.pn = (r.rn + 1) / 2 ∧ r.mb = 5 * r.pn ∧ r.rl = 2 * r.pn ∧ r.mb < r.tb ∧ r.mb / 8 = r.eb

/-- 10_state.md R30 (e) and 41_collect.md R128 (a), (b), (d): every pair of a run appends 5 bits, and the run ends on the
pair count. -/
def Obligations.RunEndsOnPairCount : Prop :=
  ∀ (d : BitVec 4) (s t : State), BlockInv s → s.st = 1#3 → s.half = true → 1 ≤ d.toNat → d.toNat ≤ 6 →
    exec (.roll d) s = .next t →
    t.bgen.toNat = s.bgen.toNat + 5 ∧ t.bgen.toNat < (strength s.sel).tb ∧
    (t.st = 2#3 ↔ t.pcnt.toNat = (strength s.sel).pn) ∧
    (t.st = 2#3 → t.bgen.toNat = (strength s.sel).mb ∧ t.rawlen.toNat = (strength s.sel).eb)

/-- 41_collect.md R128 (c): each valid die value brings the run one nearer its end, which comes at exactly `RL` of them. -/
def Obligations.ValidDiceCountDown : Prop :=
  ∀ (d : BitVec 4) (s : State), BlockInv s → s.st = 1#3 → 1 ≤ d.toNat → d.toNat ≤ 6 →
    s.taken < (strength s.sel).rl ∧
    ∃ t, exec (.roll d) s = .next t ∧ t.taken = s.taken + 1 ∧ t.sel = s.sel ∧
      (t.st = 2#3 ↔ t.taken = (strength s.sel).rl) ∧ (t.st = 1#3 ↔ t.taken < (strength s.sel).rl)

/-- 41_collect.md R129 and R128 (c), over every sequence of die values: rejected ones fall out, the valid ones make the
symbol stream, and the hash request is for its first `S` bits as bytes. -/
def Obligations.CollectionPacksDiceStream : Prop :=
  ∀ (ds : List (BitVec 4)) (s : State), BlockInv s → s.st = 1#3 → s.taken = 0 →
    let valid := ds.filter fun d => decide (1 ≤ d.toNat ∧ d.toNat ≤ 6)
    valid.length = (strength s.sel).rl →
    ∃ t, rollAll ds s = .next t ∧ t.st = 2#3 ∧ t.sel = s.sel ∧ t.params = s.params ∧
      t.accLive = diceStream s.params.symOvf valid ∧
      t.bgen.toNat = (strength s.sel).mb ∧ t.rawlen.toNat = (strength s.sel).eb ∧
      t.hreq = some (hashReq s.params.hashIf
        (bytes ((diceStream s.params.symOvf valid).take (strength s.sel).s)))

/-! ## Hash port and result -/

/-- 20_memory.md R53 and 42_finalize.md R140: the lanes of a request, and that the engine reads the message back. -/
def Obligations.RequestCarriesMessage : Prop :=
  ∀ (hif : Config.HashIf) (m : List Byte), m.length ≤ 33 →
    (hashReq hif m).len.toNat = m.length ∧
    (∀ i, i < m.length → some ((hashReq hif m).msg.extractLsb' (256 - 8 * i) 8) = m[i]?) ∧
    (∀ i, 8 * m.length ≤ i → i < 264 → (hashReq hif m).msg.getMsbD i = false) ∧
    (hashReq .msg m).blk = 0 ∧
    (hashReq hif m).message = m ∧
    (hashReq hif m).digest = Config.sha256 m

/-- 42_finalize.md R141: in BLOCK mode the block is the 64 bytes of the padded message (the padding is the spec's own
PRESUMED general knowledge, log entry 13). -/
def Obligations.BlockModePadsMessage : Prop :=
  ∀ m : List Byte, m.length ≤ 33 →
    (paddedBlock m).length = 512 ∧
    bitsOf (hashReq .block m).blk = paddedBlock m ∧
    (hashReq .block m).len = (hashReq .msg m).len ∧ (hashReq .block m).msg = (hashReq .msg m).msg ∧
    (hashReq .block m).digest = Config.sha256 m ∧
    bytes (paddedBlock m) =
      m ++ [0x80] ++ List.replicate (61 - m.length) 0 ++
        [BitVec.ofNat 8 (8 * m.length / 256), BitVec.ofNat 8 (8 * m.length % 256)]

/-- 42_finalize.md R142: the step of the hash engine, in every case. `m` is the message of the outstanding request. Where R142
gives the engine no step (no request, or a failure the build excludes), that its turn then passes with nothing else changed
is the model's choice (log entry 4). -/
def Obligations.ResponseStep : Prop :=
  ∀ (s : State) (err : Bool) (ts : List Turn), BlockInv s → s.turns = .engine err :: ts →
    (s.hpend = false ∨ (err = true ∧ s.params.hashFail = false) → step s = .next { s with turns := ts }) ∧
    (s.hpend = true → (err = true → s.params.hashFail = true) → s.st ≠ 2#3 →
      step s = .next { s with turns := ts, hpend := false, hreq := none }) ∧
    (s.st = 2#3 → err = true → s.params.hashFail = true →
      step s = .next { s with turns := ts, hpend := false, hreq := none, ecode := 2, st := 4 }) ∧
    (s.st = 2#3 → err = false →
      ∃ t, step s = .next t ∧
        let raw := (bitsOf s.acc).take (8 * s.rawlen.toNat)
        let m := bytes raw
        let digest := Config.sha256 m
        let full := raw ++ (bitsOf digest).take (strength s.sel).cb
        let cand := bytes (full.take (8 * (full.length / 8)))
        let target := canon cand.length
        t.dig0 = digest.extractLsb' 248 8 ∧
        t.candlen.toNat = cand.length ∧ t.outlen.toNat = target ∧
        (∀ n, n < 32 → t.out[n]? = some (if n < target then (fit cand target).getD n 0 else 0)) ∧
        t.st = 3#3 ∧
        { t with dig0 := s.dig0, candlen := s.candlen, outlen := s.outlen, out := s.out } =
          { s with turns := ts, hpend := false, hreq := none, st := 3 })

/-- 70_reset_and_hazards.md R189: a response the block does not wait for changes only HPEND (and the engine, having
answered, holds the request no more), whatever its digest and failure bit. -/
def Obligations.LateResponseDiscarded : Prop :=
  ∀ (digest : BitVec 256) (err : Bool) (s : State), s.st ≠ 2#3 →
    hashRsp digest err s = { s with hpend := false, hreq := none }

/-- 42_finalize.md R143: the checksum bits are the top bits of digest byte 0. -/
def Obligations.ChecksumBits : Prop :=
  (∀ (digest : BitVec 256) (cb : Nat), cb ≤ 8 →
    checksum digest cb = (bitsOf (digestByte digest 0)).take cb ∧ (checksum digest cb).length = cb) ∧
  (∀ digest : BitVec 256, digestByte digest 0 = 0x37 →
    checksum digest 4 = [false, false, true, true] ∧
    checksum digest 8 = [false, false, true, true, false, true, true, true]) ∧
  (∀ sel, (strength sel).cb = (strength sel).s / 32 ∧ (strength sel).cb ≤ 8)

/-- 42_finalize.md R144: the candidate is the raw bytes, and the checksum byte after them only where `CB = 8`. -/
def Obligations.CandidateBytes : Prop :=
  (∀ raw ck : Bits, candidate raw ck = bytes (trunc8 (raw ++ ck)) ∧
    (trunc8 (raw ++ ck)).length = 8 * ((raw.length + ck.length) / 8)) ∧
  (∀ raw ck : Bits, raw.length % 8 = 0 → ck.length < 8 →
    trunc8 (raw ++ ck) = raw ∧ (candidate raw ck).length = raw.length / 8) ∧
  (∀ raw ck : Bits, raw.length % 8 = 0 → ck.length = 8 →
    trunc8 (raw ++ ck) = raw ++ ck ∧ (candidate raw ck).length = raw.length / 8 + 1) ∧
  (∀ sel : BitVec 3, 1 ≤ sel.toNat → sel.toNat ≤ 4 → (strength sel).cb < 8) ∧ (strength 5).cb = 8

/-- 42_finalize.md R145: the canonical length minimises `(|L - t|, t)`, and its closed form. -/
def Obligations.CanonicalLength : Prop :=
  (∀ l, canon l ∈ [16, 20, 24, 28, 32] ∧
    ∀ u ∈ [16, 20, 24, 28, 32],
      ((l : Int) - canon l).natAbs < ((l : Int) - u).natAbs ∨
      ((l : Int) - canon l).natAbs = ((l : Int) - u).natAbs ∧ canon l ≤ u) ∧
  (∀ l ∈ [16, 20, 24, 28, 32], canon l = l) ∧
  (∀ l, l ≤ 34 →
    canon l = if l ≤ 18 then 16 else if l ≤ 22 then 20 else if l ≤ 26 then 24 else if l ≤ 30 then 28 else 32)

/-- 42_finalize.md R146: `fit`, and where its bytes stand in OUT and on the read port. -/
def Obligations.FitToLength : Prop :=
  (∀ (cand : List Byte) (t : Nat), t ≤ cand.length → fit cand t = cand.take t) ∧
  (∀ (cand : List Byte) (t : Nat), cand.length < t → fit cand t = cand ++ List.replicate (t - cand.length) 0) ∧
  (∀ (cand : List Byte) (t n : Nat), n < min cand.length t → (fit cand t)[n]? = cand[n]?) ∧
  (∀ (cand : List Byte) (t : Nat), (fit cand t).length = t) ∧
  (∀ (cand : List Byte) (t n : Nat) (s : State), t ≤ 32 → n < t → s.out = outBuffer (fit cand t) →
    s.out[n]? = (fit cand t)[n]? ∧ some (regRead (BitVec.ofNat 8 (0x20 + n)) s) = (fit cand t)[n]?)

/-- 42_finalize.md R147: a successful response gives the raw entropy bytes, cut or padded nowhere, with the table's
lengths. -/
def Obligations.CompleteRunResult : Prop :=
  ∀ (s : State) (ts : List Turn), BlockInv s → s.st = 2#3 → s.turns = .engine false :: ts →
    ∃ t, step s = .next t ∧ t.st = 3#3 ∧
      t.bgen.toNat = (strength s.sel).mb ∧ t.rawlen.toNat = (strength s.sel).eb ∧
      t.outlen.toNat = (strength s.sel).eb ∧
      t.candlen.toNat = (strength s.sel).eb + (if s.sel = 5#3 then 1 else 0) ∧
      (∀ n, n < (strength s.sel).eb → some (s.accByte n) = t.out[n]?) ∧
      (∀ n, (strength s.sel).eb ≤ n → n < 32 → t.out[n]? = some 0)

/-- 42_finalize.md R148, R149: nothing but DIG0 depends on the digest. -/
def Obligations.DigestReachesOnlyDig0 : Prop :=
  ∀ (s : State) (d e : BitVec 256), BlockInv s → s.st = 2#3 →
    (hashRsp d false s).dig0 = d.extractLsb' 248 8 ∧
    { hashRsp d false s with dig0 := 0 } = { hashRsp e false s with dig0 := 0 }

/-! ## Events and errors -/

/-- 60_exceptions.md R165: the hash failure, and that it comes only from a failed response that the build allows. -/
def Obligations.HashFailureOnlyFromResponse : Prop :=
  (∀ (digest : BitVec 256) (s : State), s.st = 2#3 →
    hashRsp digest true s = { s with hpend := false, hreq := none, ecode := 2, st := 4 }) ∧
  (∀ (digest : BitVec 256) (s : State), s.st ≠ 2#3 → (hashRsp digest true s).ecode = s.ecode) ∧
  (∀ s t : State, step s = .next t → s.ecode ≠ 2#2 → t.ecode = 2#2 →
    s.params.hashFail = true ∧ s.st = 2#3 ∧ ∃ ts, s.turns = .engine true :: ts)

/-- 60_exceptions.md R164: a START in IDLE with a selector outside 1..5 is the configuration error, nothing else is, and
the strength registers stay empty. -/
def Obligations.ConfigErrorOnlyFromStart : Prop :=
  (∀ (sel : BitVec 4) (s : State), s.st = 0#3 → s.hpend = false → ¬(1 ≤ sel.toNat ∧ sel.toNat ≤ 5) →
    ∃ t, exec (.start sel) s = .next t ∧ t.ecode = 1#2 ∧ t.st = 4#3 ∧ t.sel = s.sel) ∧
  (∀ s t : State, BlockInv s → step s = .next t → s.ecode ≠ 1#2 → t.ecode = 1#2 →
    s.st = 0#3 ∧ s.hpend = false ∧ t.st = 4#3 ∧ t.sel = 0#3 ∧
    (∀ a : BitVec 8, 0x02 ≤ a.toNat → a.toNat ≤ 0x0F → regRead a t = 0x00) ∧
    ∃ ts w ws sel, s.turns = .host :: ts ∧ s.cmds = w :: ws ∧ decode w = .instr (.start sel) ∧
      ¬(1 ≤ sel.toNat ∧ sel.toNat ≤ 5))

/-- 60_exceptions.md R162 and R168: after a fatal error only SEQ and ILL may change, until ACK, CANCEL or reset leaves
ERROR for IDLE. -/
def Obligations.ErrorLeftOnlyByAckOrCancel : Prop :=
  ∀ s t : State, BlockInv s → s.st = 4#3 → step s = .next t →
    (t.st = 4#3 ∧ { t with seq := s.seq, ill := s.ill, cmds := s.cmds, turns := s.turns } = s) ∨
    (t.st = 0#3 ∧ ((∃ ts, s.turns = .rst :: ts) ∨
      ∃ ts w ws, s.turns = .host :: ts ∧ s.cmds = w :: ws ∧
        (decode w = .instr .ack ∨ decode w = .instr .cancel)))

/-- 60_exceptions.md R170: EVT rises when a step enters DONE or ERROR, and falls only on ACK, CANCEL or reset. -/
def Obligations.EventOutputEdges : Prop :=
  (∀ s : State, s.evt = true ↔ s.st = 3#3 ∨ s.st = 4#3) ∧
  (∀ s t : State, step s = .next t → s.evt = false → t.evt = true →
    (s.st = 2#3 ∧ (t.st = 3#3 ∨ t.st = 4#3)) ∨ (s.st = 0#3 ∧ t.st = 4#3)) ∧
  (∀ s t : State, step s = .next t → s.evt = true → t.evt = false →
    t.st = 0#3 ∧ ((∃ ts, s.turns = .rst :: ts) ∨
      ∃ ts w ws, s.turns = .host :: ts ∧ s.cmds = w :: ws ∧
        (decode w = .instr .ack ∨ decode w = .instr .cancel)))

/-- 60_exceptions.md R167: a response and a CANCEL in HASH_WAIT end in the same state in either order; a successful
response and an ACK do not. -/
def Obligations.ResponseOrders : Prop :=
  ∀ (s : State) (digest : BitVec 256) (err : Bool), BlockInv s → s.st = 2#3 →
    (∃ t u, exec .cancel s = .next t ∧ exec .cancel (hashRsp digest err s) = .next u ∧
      hashRsp digest err t = u ∧ u.st = 0#3 ∧ u.abt = true ∧ u.hpend = false ∧ RunCleared u) ∧
    (∃ t u, exec .ack s = .next t ∧ (hashRsp digest false t).st = 3#3 ∧ (hashRsp digest false t).seq = true ∧
      exec .ack (hashRsp digest false s) = .next u ∧ u.st = 0#3)

/-- 10_state.md R38: the sticky flags REJ, SEQ and ILL only record; two states that differ in nothing else step to two
states that differ in nothing else. -/
def Obligations.StickyFlagsDecideNothing : Prop :=
  ∀ (s t : State) (a b c : Bool), step s = .next t →
    ∃ a' b' c', step { s with rej := a, seq := b, ill := c } = .next { t with rej := a', seq := b', ill := c' }

/-- 10_state.md R38, its table of the flags, and 60_exceptions.md R163: what sets each flag, and what clears it. -/
def Obligations.FlagsChangeOnlyAsListed : Prop :=
  ∀ s t : State, step s = .next t →
    let isReset := ∃ ts, s.turns = .rst :: ts
    let takes := fun i => ∃ ts w ws, s.turns = .host :: ts ∧ s.cmds = w :: ws ∧ decode w = .instr i
    let startAccepted := s.st = 0#3 ∧ s.hpend = false ∧ ∃ sel, takes (.start sel)
    (s.rej = true → t.rej = false → startAccepted ∨ takes .cancel ∨ isReset) ∧
    (s.seq = true → t.seq = false → startAccepted ∨ takes .cancel ∨ isReset) ∧
    (s.ill = true → t.ill = false → startAccepted ∨ takes .cancel ∨ isReset) ∧
    (s.abt = true → t.abt = false → startAccepted ∨ isReset) ∧
    (s.rej = false → t.rej = true →
      s.st = 1#3 ∧ ∃ d : BitVec 4, takes (.roll d) ∧ ¬(1 ≤ d.toNat ∧ d.toNat ≤ 6)) ∧
    (s.seq = false → t.seq = true →
      (s.st ≠ 0#3 ∧ ∃ sel, takes (.start sel)) ∨ (s.st ≠ 1#3 ∧ ∃ d, takes (.roll d)) ∨
      (s.st ≠ 3#3 ∧ s.st ≠ 4#3 ∧ takes .ack)) ∧
    (s.ill = false → t.ill = true →
      ∃ ts w ws why, s.turns = .host :: ts ∧ s.cmds = w :: ws ∧ decode w = .illegal why) ∧
    (s.abt = false → t.abt = true → takes .cancel)

/-- 10_state.md R29 and 41_collect.md R126: no step reads the audit record. -/
def Obligations.AuditIsNeverRead : Prop :=
  ∀ (s t : State) (v : Vector Byte 52), step s = .next t →
    ∃ v', step { s with audit := v } = .next { t with audit := v' }

/-! ## Invariants and whole-machine rules -/

/-- The three invariants hold at reset (R180). -/
def Obligations.InvariantsAtReset : Prop :=
  BlockInv State.reset ∧ StreamInv State.reset ∧ ResultInv State.reset

/-- 10_state.md R40, with the bounds of R30 and R31: every step of every agent keeps the invariant. -/
def Obligations.StepKeepsInvariant : Prop :=
  ∀ s t : State, BlockInv s → step s = .next t → BlockInv t

/-- 41_collect.md R129 as a law of states: the accumulator always holds exactly the symbol stream of the audit record. -/
def Obligations.AccumulatorIsSymbolStream : Prop :=
  ∀ s t : State, BlockInv s → StreamInv s → step s = .next t → StreamInv t

/-- 42_finalize.md R147 as a law of states: a result is always the first `S` bits of the run's symbol stream. -/
def Obligations.ResultIsSymbolStream : Prop :=
  ∀ s t : State, BlockInv s → StreamInv s → ResultInv s → step s = .next t → ResultInv t

/-- 10_state.md R23: the strength does not change during a run. -/
def Obligations.SelectorFixedDuringRun : Prop :=
  ∀ s t : State, step s = .next t → s.st ≠ 0#3 → t.st ≠ 0#3 → t.sel = s.sel

/-- 20_memory.md R74: a request is issued only where none is outstanding, and answered or abandoned only by the engine's
step or reset. -/
def Obligations.OneRequestOutstanding : Prop :=
  ∀ s t : State, BlockInv s → step s = .next t →
    (s.hpend = false → t.hpend = true → s.hreq = none ∧ s.st = 1#3 ∧ t.st = 2#3) ∧
    (s.hpend = true → t.hreq = s.hreq ∧ t.hpend = true ∨
      t.hreq = none ∧ t.hpend = false ∧ ((∃ ts err, s.turns = .engine err :: ts) ∨ ∃ ts, s.turns = .rst :: ts))

/-- 20_memory.md R51: each accepted word is one host step, taken in order; a word not accepted stays, and nothing changes;
no other step touches the words. 60_exceptions.md R177: with no turn left, or a host with no word, every register is kept.
The lists of words and turns, the turn that is passed over and the held word are the model's choices (log entries 3, 4, 17). -/
def Obligations.WordsAcceptedInOrder : Prop :=
  ∀ s t : State, step s = .next t →
    (∀ ts w ws, s.turns = .host :: ts → s.cmds = w :: ws →
      (s.cmdReady = true ∧ t.cmds = ws) ∨ (s.cmdReady = false ∧ t = { s with turns := ts })) ∧
    (¬(∃ ts w ws, s.turns = .host :: ts ∧ s.cmds = w :: ws) → t.cmds = s.cmds) ∧
    (s.turns = [] → t = s) ∧
    (∀ ts, s.turns = .host :: ts → s.cmds = [] → t = { s with turns := ts })

/-- 10_state.md R22 and 60_exceptions.md R160: in the five states every step goes on; in ST 5, 6 and 7 every step but
reset is refused, and so is every command. That a step goes on where the agent has none to take, or where the word is held, is
the model's choice (log entries 4 and 17); that nothing faults is deduced (log entry 16); that reset is taken in ST 5, 6 and 7
too, although R22 says to refuse there, is the model's choice (log entry 7). -/
def Obligations.StopsOnlyInIllegalState : Prop :=
  (∀ s : State, s.st.toNat ≤ 4 → ∃ t, step s = .next t) ∧
  (∀ s : State, 5 ≤ s.st.toNat →
    (∀ i, exec i s = .refused .illegalState) ∧
    ((∃ ts, s.turns = .rst :: ts) ∨ step s = .refused .illegalState))

/-- 00_scope.md R7 and 70_reset_and_hazards.md R184: no step writes the parameters (log entry 1). -/
def Obligations.ParametersAreFixed : Prop :=
  ∀ s t : State, step s = .next t → t.params = s.params

/-- 70_reset_and_hazards.md R180: the state right after reset. -/
def Obligations.ResetState : Prop :=
  SameRegisters State.reset { State.reset with
    st := 0, sel := 0, half := false, r1 := 0, pcnt := 0, bgen := 0, acc := 0, audit := Vector.replicate 52 0,
    hpend := false, rawlen := 0, dig0 := 0, candlen := 0, outlen := 0, out := Vector.replicate 32 0, ecode := 0,
    rej := false, seq := false, ill := false, abt := false } ∧
  (∀ a, regRead a State.reset = 0x00) ∧ State.reset.evt = false ∧ State.reset.cmdReady = true

/-- 70_reset_and_hazards.md R181 and R182: reset, in every state. That it is taken with ST 5, 6 and 7 too, where R22 says to
refuse, is the model's choice (log entry 7). The model keeps the parameters, the host's words and the turns, which are its own
(log entry 6). -/
def Obligations.ResetStep : Prop :=
  ∀ (s : State) (ts : List Turn), s.turns = .rst :: ts →
    ∃ t, step s = .next t ∧ SameRegisters t State.reset ∧ t.hreq = none ∧ t.params = s.params ∧ t.cmds = s.cmds ∧
      t.turns = ts ∧ t.evt = false ∧ t.cmdReady = true ∧ ∀ a, regRead a t = 0x00

/-! ## The read port -/

/-- 20_memory.md R57, STATUS. -/
def Obligations.StatusLayout : Prop :=
  (∀ s : State,
    (regRead 0x00 s).extractLsb' 0 3 = s.st ∧ (regRead 0x00 s).getLsbD 3 = s.half ∧
    (regRead 0x00 s).getLsbD 4 = s.hpend ∧ (regRead 0x00 s).getLsbD 5 = s.abt ∧
    ((regRead 0x00 s).getLsbD 6 = true ↔ s.st = 3#3 ∨ s.st = 4#3) ∧ (regRead 0x00 s).getLsbD 7 = false) ∧
  regRead 0x00 State.reset = 0x00

/-- 20_memory.md R58, ERR. -/
def Obligations.ErrLayout : Prop :=
  (∀ s : State,
    (regRead 0x01 s).extractLsb' 0 2 = s.ecode ∧ (regRead 0x01 s).getLsbD 2 = s.rej ∧
    (regRead 0x01 s).getLsbD 3 = s.seq ∧ (regRead 0x01 s).getLsbD 4 = s.ill ∧
    (regRead 0x01 s).extractLsb' 5 3 = 0) ∧
  regRead 0x01 State.reset = 0x00

/-- 20_memory.md R56, the rows 0x02 to 0x0F. -/
def Obligations.InfoRegisters : Prop :=
  ∀ s : State,
    (regRead 0x02 s).toNat = s.sel.toNat ∧ (regRead 0x03 s).toNat = (strength s.sel).eb ∧
    (regRead 0x04 s).toNat = (strength s.sel).cb ∧ (regRead 0x05 s).toNat = (strength s.sel).pn ∧
    (regRead 0x06 s).toNat = s.pcnt.toNat ∧
    (regRead 0x07 s).toNat + 256 * (regRead 0x08 s).toNat = s.bgen.toNat ∧
    (regRead 0x09 s).toNat + 256 * (regRead 0x0A s).toNat = (strength s.sel).tb ∧
    (regRead 0x0B s).toNat = s.r1.toNat ∧ (regRead 0x0C s).toNat = s.rawlen.toNat ∧
    (regRead 0x0D s).toNat = s.candlen.toNat ∧ (regRead 0x0E s).toNat = s.outlen.toNat ∧ regRead 0x0F s = s.dig0

/-- 20_memory.md R60 and R61: the OUT and AUDIT windows. -/
def Obligations.OutAndAuditWindows : Prop :=
  (∀ (s : State) (n : Nat), n < 32 → some (regRead (BitVec.ofNat 8 (0x20 + n)) s) = s.out[n]?) ∧
  (∀ (s : State) (n : Nat), BlockInv s → s.st ≠ 3#3 → n < 32 → regRead (BitVec.ofNat 8 (0x20 + n)) s = 0x00) ∧
  (∀ (s : State) (n : Nat), n < 52 → some (regRead (BitVec.ofNat 8 (0x40 + n)) s) = s.audit[n]?) ∧
  (∀ (s : State) (n : Nat), BlockInv s → s.pcnt.toNat ≤ n → n < 52 → regRead (BitVec.ofNat 8 (0x40 + n)) s = 0x00)

/-- 20_memory.md R62: the ACC window, bit by bit, and that in HASH_WAIT it shows the hash message. -/
def Obligations.AccWindow : Prop :=
  (∀ (s : State) (k : Nat), k ≤ 32 →
    (regRead (BitVec.ofNat 8 (0x80 + k)) s).toNat =
      ((List.range 8).map fun j => (s.acc.getMsbD (8 * k + j)).toNat * 2 ^ (7 - j)).sum ∧
    regRead (BitVec.ofNat 8 (0x80 + k)) s = s.acc.extractLsb' (256 - 8 * k) 8) ∧
  (∀ (s : State) (k j : Nat), BlockInv s → k ≤ 32 → j < 8 → s.bgen.toNat ≤ 8 * k + j →
    (regRead (BitVec.ofNat 8 (0x80 + k)) s).getMsbD j = false) ∧
  (∀ (s : State) (k : Nat), BlockInv s → s.st = 2#3 → k < s.rawlen.toNat →
    s.hreq.map (fun r => r.message[k]?) = some (some (regRead (BitVec.ofNat 8 (0x80 + k)) s)))

/-- 20_memory.md R63: reserved addresses and reserved bits read 0. -/
def Obligations.ReservedReadsZero : Prop :=
  ∀ (s : State) (a : BitVec 8),
    (0x10 ≤ a.toNat ∧ a.toNat ≤ 0x1F ∨ 0x74 ≤ a.toNat ∧ a.toNat ≤ 0x7F ∨ 0xA1 ≤ a.toNat → regRead a s = 0x00) ∧
    (regRead 0x00 s).getLsbD 7 = false ∧ (regRead 0x01 s).toNat < 32 ∧ (regRead 0x02 s).toNat < 8 ∧
    (regRead 0x06 s).toNat < 64 ∧ (regRead 0x08 s).toNat < 2 ∧ (regRead 0x0A s).toNat < 2 ∧ (regRead 0x0B s).toNat < 8 ∧
    (regRead 0x0C s).toNat < 64 ∧ (regRead 0x0D s).toNat < 64 ∧ (regRead 0x0E s).toNat < 64

/-- 60_exceptions.md R176 and 10_state.md R20: the read port shows the whole architectural state: two states that read
alike at every address hold the same registers. -/
def Obligations.ReadPortShowsEveryRegister : Prop :=
  ∀ s t : State, (∀ a : BitVec 8, regRead a s = regRead a t) → SameRegisters s t
end

