-- ==== Sys2Proof/Laws/Bits.lean ====
section
/-! SUPPORT. Bit sequences, registers and bytes: lengths, and that a sequence put into a register, or into bytes, is read
back as it was. -/

namespace Sys2Proof.Machine

@[simp] theorem length_bitsOf {n : Nat} (v : BitVec n) : (bitsOf v).length = n := by simp [bitsOf]

@[simp] theorem length_zeros (n : Nat) : (zeros n).length = n := by simp [zeros]

@[simp] theorem length_numeral (w c : Nat) : (numeral w c).length = w := by simp [numeral]

@[simp] theorem getElem_bitsOf {n : Nat} (v : BitVec n) (i : Nat) (h : i < (bitsOf v).length) :
    (bitsOf v)[i] = v.getMsbD i := by simp [bitsOf]

@[simp] theorem natOf_nil : natOf [] = 0 := rfl

@[simp] theorem natOf_concat (a : Bits) (b : Bool) : natOf (a ++ [b]) = 2 * natOf a + b.toNat := by
  simp [natOf, List.foldl_append]

theorem natOf_lt (a : Bits) : natOf a < 2 ^ a.length := by
  induction a using List.reverseRecOn with
  | nil => simp
  | append_singleton a b ih =>
    have := b.toNat_lt
    simp only [natOf_concat, List.length_append, List.length_singleton, Nat.pow_succ]
    omega

/-- Bit `i` of the number a sequence writes is the bit `i` places before its end. -/
theorem testBit_natOf (a : Bits) (i : Nat) (h : i < a.length) :
    (natOf a).testBit i = a[a.length - 1 - i] := by
  induction a using List.reverseRecOn generalizing i with
  | nil => simp at h
  | append_singleton a b ih =>
    rw [natOf_concat]
    cases i with
    | zero => cases b <;> simp [Nat.testBit_zero]
    | succ i =>
      simp only [List.length_append, List.length_singleton] at h
      have hb : (2 * natOf a + b.toNat) / 2 = natOf a := by cases b <;> simp; omega
      have hi : (a ++ [b]).length - 1 - (i + 1) < a.length := by simp; omega
      rw [Nat.testBit_succ, hb, ih i (by omega), List.getElem_append_left hi]
      congr 1
      simp
      omega

/-- A register of the sequence's length holds the sequence. -/
@[simp] theorem bitsOf_ofBits (n : Nat) (a : Bits) (h : a.length = n) : bitsOf (ofBits n a) = a := by
  apply List.ext_getElem
  · simp [h]
  · intro i h1 h2
    have hi : i < n := by omega
    rw [getElem_bitsOf, ofBits, BitVec.getMsbD, BitVec.getLsbD_ofNat, testBit_natOf a _ (by omega)]
    simp only [hi, decide_true, Bool.true_and]
    have : n - 1 - i < n := by omega
    simp only [this, decide_true, Bool.true_and]
    congr 1
    omega

theorem bitsOf_injective {n : Nat} {v w : BitVec n} (h : bitsOf v = bitsOf w) : v = w := by
  apply BitVec.eq_of_getMsbD_eq
  intro i hi
  have := List.getElem_of_eq h (i := i) (by simpa using hi)
  simpa using this

@[simp] theorem ofBits_bitsOf {n : Nat} (v : BitVec n) : ofBits n (bitsOf v) = v :=
  bitsOf_injective (bitsOf_ofBits n _ (length_bitsOf v))

theorem getMsbD_ofBits (n : Nat) (a : Bits) (h : a.length = n) (i : Nat) (hi : i < n) :
    (ofBits n a).getMsbD i = a[i] := by
  rw [← getElem_bitsOf (ofBits n a) i (by simpa using hi)]
  simp [h]

/-- The all-zero sequence is the register 0. -/
@[simp] theorem ofBits_zeros (n : Nat) : ofBits n (zeros n) = 0 := by
  apply BitVec.eq_of_getMsbD_eq
  intro i hi
  rw [getMsbD_ofBits n _ (by simp) i hi]
  simp [zeros]

theorem le_length_bin5 (c : Nat) : 5 ≤ (bin5 c).length := by simp [bin5]

/-- Every symbol contributes exactly 5 bits, under either value of the parameter (R124). -/
@[simp] theorem length_sym5 (p : Config.SymOvf) (c : Nat) : (sym5 p c).length = 5 := by
  cases p with
  | prefix5 => simpa [sym5] using le_length_bin5 c
  | low5 =>
    have hc : c % 32 < 32 := Nat.mod_lt _ (by decide)
    have hd : digitCount (c % 32) ≤ 5 := by
      unfold digitCount
      split
      · decide
      · have : Nat.log2 (c % 32) < 5 := (Nat.log2_lt ‹_›).2 (by simpa using hc)
        omega
    simp only [sym5, bin5, length_numeral]
    omega

@[simp] theorem length_trunc8 (a : Bits) : (trunc8 a).length = 8 * (a.length / 8) := by
  simp only [trunc8, List.length_take]
  omega

/-- A sequence of whole bytes is not cut. -/
theorem trunc8_of_dvd (a : Bits) (h : a.length % 8 = 0) : trunc8 a = a := by
  rw [trunc8, List.take_of_length_le (by omega)]

@[simp] theorem length_bytes (a : Bits) : (bytes a).length = a.length / 8 := by simp [bytes]

@[simp] theorem getElem_bytes (a : Bits) (k : Nat) (h : k < (bytes a).length) :
    (bytes a)[k] = ofBits 8 ((a.drop (8 * k)).take 8) := by simp [bytes]

@[simp] theorem bits_nil : bits [] = [] := rfl

@[simp] theorem bits_cons (b : Byte) (e : List Byte) : bits (b :: e) = bitsOf b ++ bits e := rfl

@[simp] theorem length_bits (e : List Byte) : (bits e).length = 8 * e.length := by
  induction e with
  | nil => rfl
  | cons b e ih => simp [ih]; omega

/-- Byte 0 is the first eight bits, and the other bytes are those of the rest. -/
theorem bytes_append_byte (a b : Bits) (h : a.length = 8) : bytes (a ++ b) = ofBits 8 a :: bytes b := by
  apply List.ext_getElem
  · simp [h]
  · intro k h1 h2
    cases k with
    | zero =>
      rw [getElem_bytes, List.getElem_cons_zero, Nat.mul_zero, List.drop_zero, List.take_left' h]
    | succ k =>
      rw [getElem_bytes, List.getElem_cons_succ, getElem_bytes]
      have : 8 * (k + 1) = a.length + 8 * k := by omega
      rw [this, List.drop_length_add_append]

@[simp] theorem bytes_bits (e : List Byte) : bytes (bits e) = e := by
  induction e with
  | nil => rfl
  | cons b e ih => rw [bits_cons, bytes_append_byte _ _ (length_bitsOf b), ih, ofBits_bitsOf]

/-- A sequence of whole bytes is read back from its bytes. -/
theorem bits_bytes (n : Nat) (a : Bits) (h : a.length = 8 * n) : bits (bytes a) = a := by
  induction n generalizing a with
  | zero => simp_all [bytes]
  | succ n ih =>
    have ha : a = a.take 8 ++ a.drop 8 := (List.take_append_drop 8 a).symm
    have h8 : (a.take 8).length = 8 := by simp; omega
    rw [ha, bytes_append_byte _ _ h8, bits_cons, bitsOf_ofBits 8 _ h8, ih (a.drop 8) (by simp; omega)]

/-- The bytes of whole bytes followed by more bits. -/
theorem bytes_append (n : Nat) (a b : Bits) (h : a.length = 8 * n) : bytes (a ++ b) = bytes a ++ bytes b := by
  induction n generalizing a with
  | zero => simp_all [bytes]
  | succ n ih =>
    have ha : a = a.take 8 ++ a.drop 8 := (List.take_append_drop 8 a).symm
    have h8 : (a.take 8).length = 8 := by simp; omega
    rw [ha, List.append_assoc, bytes_append_byte _ _ h8, bytes_append_byte _ _ h8, ih _ (by simp; omega),
      List.cons_append]

/-- The first `n` bytes of a sequence are the bytes of its first `8n` bits. -/
theorem take_bytes (a : Bits) (n : Nat) : (bytes a).take n = bytes (a.take (8 * n)) := by
  apply List.ext_getElem
  · simp only [List.length_take, length_bytes]
    omega
  · intro k h1 h2
    simp only [List.getElem_take, getElem_bytes]
    congr 1
    rw [List.drop_take, List.take_take]
    congr 1
    simp at h1
    omega

/-- A byte lane of a register is the byte its eight bits write: lane `k` counts from the most significant (R62, R64). -/
theorem extractLsb'_eq_byte {n : Nat} (v : BitVec n) (k : Nat) (h : 8 * k + 8 ≤ n) :
    v.extractLsb' (n - 8 - 8 * k) 8 = ofBits 8 (((bitsOf v).drop (8 * k)).take 8) := by
  apply BitVec.eq_of_getMsbD_eq
  intro i hi
  rw [getMsbD_ofBits 8 _ (by simp; omega) i hi]
  simp only [List.getElem_take, List.getElem_drop, getElem_bitsOf, BitVec.getMsbD,
    BitVec.getLsbD_extractLsb']
  have h1 : 8 * k + i < n := by omega
  have h2 : 8 - 1 - i < 8 := by omega
  have h3 : n - 8 - 8 * k + (8 - 1 - i) = n - 1 - (8 * k + i) := by omega
  simp [hi, h1, h2, h3]

/-- The message lanes of a request, as bits (20_memory.md R53). -/
theorem bitsOf_hreqMsg (m : List Byte) (h : m.length ≤ 33) :
    bitsOf (hreqMsg m) = bits m ++ zeros (264 - 8 * m.length) := bitsOf_ofBits _ _ (by simp; omega)

/-- `canon` in closed form (42_finalize.md R145). -/
theorem canon_eq (l : Nat) :
    canon l = if l ≤ 18 then 16 else if l ≤ 22 then 20 else if l ≤ 26 then 24 else if l ≤ 30 then 28 else 32 := by
  simp only [canon, canonTargets, List.foldl, closer, lenDist, decide_eq_true_eq]
  split_ifs <;> omega

@[simp] theorem length_fit (cand : List Byte) (t : Nat) : (fit cand t).length = t := by
  unfold fit
  split <;> simp <;> omega

end Sys2Proof.Machine
end

