-- ==== Sys2Proof/Laws/State.lean ====
section
/-! SUPPORT. One lemma per field per update: what each named update of the state writes, and that it leaves the other
fields as they were. Every one is true by definition. -/

namespace Sys2Proof.Machine

variable (s : State)

section flagRej
@[simp] theorem State.flagRej_st : (s.flagRej).st = s.st := rfl
@[simp] theorem State.flagRej_sel : (s.flagRej).sel = s.sel := rfl
@[simp] theorem State.flagRej_half : (s.flagRej).half = s.half := rfl
@[simp] theorem State.flagRej_r1 : (s.flagRej).r1 = s.r1 := rfl
@[simp] theorem State.flagRej_pcnt : (s.flagRej).pcnt = s.pcnt := rfl
@[simp] theorem State.flagRej_bgen : (s.flagRej).bgen = s.bgen := rfl
@[simp] theorem State.flagRej_acc : (s.flagRej).acc = s.acc := rfl
@[simp] theorem State.flagRej_audit : (s.flagRej).audit = s.audit := rfl
@[simp] theorem State.flagRej_hpend : (s.flagRej).hpend = s.hpend := rfl
@[simp] theorem State.flagRej_rawlen : (s.flagRej).rawlen = s.rawlen := rfl
@[simp] theorem State.flagRej_dig0 : (s.flagRej).dig0 = s.dig0 := rfl
@[simp] theorem State.flagRej_candlen : (s.flagRej).candlen = s.candlen := rfl
@[simp] theorem State.flagRej_outlen : (s.flagRej).outlen = s.outlen := rfl
@[simp] theorem State.flagRej_out : (s.flagRej).out = s.out := rfl
@[simp] theorem State.flagRej_ecode : (s.flagRej).ecode = s.ecode := rfl
@[simp] theorem State.flagRej_rej : (s.flagRej).rej = true := rfl
@[simp] theorem State.flagRej_seq : (s.flagRej).seq = s.seq := rfl
@[simp] theorem State.flagRej_ill : (s.flagRej).ill = s.ill := rfl
@[simp] theorem State.flagRej_abt : (s.flagRej).abt = s.abt := rfl
@[simp] theorem State.flagRej_params : (s.flagRej).params = s.params := rfl
@[simp] theorem State.flagRej_hreq : (s.flagRej).hreq = s.hreq := rfl
@[simp] theorem State.flagRej_cmds : (s.flagRej).cmds = s.cmds := rfl
@[simp] theorem State.flagRej_turns : (s.flagRej).turns = s.turns := rfl
end flagRej

section flagSeq
@[simp] theorem State.flagSeq_st : (s.flagSeq).st = s.st := rfl
@[simp] theorem State.flagSeq_sel : (s.flagSeq).sel = s.sel := rfl
@[simp] theorem State.flagSeq_half : (s.flagSeq).half = s.half := rfl
@[simp] theorem State.flagSeq_r1 : (s.flagSeq).r1 = s.r1 := rfl
@[simp] theorem State.flagSeq_pcnt : (s.flagSeq).pcnt = s.pcnt := rfl
@[simp] theorem State.flagSeq_bgen : (s.flagSeq).bgen = s.bgen := rfl
@[simp] theorem State.flagSeq_acc : (s.flagSeq).acc = s.acc := rfl
@[simp] theorem State.flagSeq_audit : (s.flagSeq).audit = s.audit := rfl
@[simp] theorem State.flagSeq_hpend : (s.flagSeq).hpend = s.hpend := rfl
@[simp] theorem State.flagSeq_rawlen : (s.flagSeq).rawlen = s.rawlen := rfl
@[simp] theorem State.flagSeq_dig0 : (s.flagSeq).dig0 = s.dig0 := rfl
@[simp] theorem State.flagSeq_candlen : (s.flagSeq).candlen = s.candlen := rfl
@[simp] theorem State.flagSeq_outlen : (s.flagSeq).outlen = s.outlen := rfl
@[simp] theorem State.flagSeq_out : (s.flagSeq).out = s.out := rfl
@[simp] theorem State.flagSeq_ecode : (s.flagSeq).ecode = s.ecode := rfl
@[simp] theorem State.flagSeq_rej : (s.flagSeq).rej = s.rej := rfl
@[simp] theorem State.flagSeq_seq : (s.flagSeq).seq = true := rfl
@[simp] theorem State.flagSeq_ill : (s.flagSeq).ill = s.ill := rfl
@[simp] theorem State.flagSeq_abt : (s.flagSeq).abt = s.abt := rfl
@[simp] theorem State.flagSeq_params : (s.flagSeq).params = s.params := rfl
@[simp] theorem State.flagSeq_hreq : (s.flagSeq).hreq = s.hreq := rfl
@[simp] theorem State.flagSeq_cmds : (s.flagSeq).cmds = s.cmds := rfl
@[simp] theorem State.flagSeq_turns : (s.flagSeq).turns = s.turns := rfl
end flagSeq

section flagIll
@[simp] theorem State.flagIll_st : (s.flagIll).st = s.st := rfl
@[simp] theorem State.flagIll_sel : (s.flagIll).sel = s.sel := rfl
@[simp] theorem State.flagIll_half : (s.flagIll).half = s.half := rfl
@[simp] theorem State.flagIll_r1 : (s.flagIll).r1 = s.r1 := rfl
@[simp] theorem State.flagIll_pcnt : (s.flagIll).pcnt = s.pcnt := rfl
@[simp] theorem State.flagIll_bgen : (s.flagIll).bgen = s.bgen := rfl
@[simp] theorem State.flagIll_acc : (s.flagIll).acc = s.acc := rfl
@[simp] theorem State.flagIll_audit : (s.flagIll).audit = s.audit := rfl
@[simp] theorem State.flagIll_hpend : (s.flagIll).hpend = s.hpend := rfl
@[simp] theorem State.flagIll_rawlen : (s.flagIll).rawlen = s.rawlen := rfl
@[simp] theorem State.flagIll_dig0 : (s.flagIll).dig0 = s.dig0 := rfl
@[simp] theorem State.flagIll_candlen : (s.flagIll).candlen = s.candlen := rfl
@[simp] theorem State.flagIll_outlen : (s.flagIll).outlen = s.outlen := rfl
@[simp] theorem State.flagIll_out : (s.flagIll).out = s.out := rfl
@[simp] theorem State.flagIll_ecode : (s.flagIll).ecode = s.ecode := rfl
@[simp] theorem State.flagIll_rej : (s.flagIll).rej = s.rej := rfl
@[simp] theorem State.flagIll_seq : (s.flagIll).seq = s.seq := rfl
@[simp] theorem State.flagIll_ill : (s.flagIll).ill = true := rfl
@[simp] theorem State.flagIll_abt : (s.flagIll).abt = s.abt := rfl
@[simp] theorem State.flagIll_params : (s.flagIll).params = s.params := rfl
@[simp] theorem State.flagIll_hreq : (s.flagIll).hreq = s.hreq := rfl
@[simp] theorem State.flagIll_cmds : (s.flagIll).cmds = s.cmds := rfl
@[simp] theorem State.flagIll_turns : (s.flagIll).turns = s.turns := rfl
end flagIll

section clearSticky
@[simp] theorem State.clearSticky_st : (s.clearSticky).st = s.st := rfl
@[simp] theorem State.clearSticky_sel : (s.clearSticky).sel = s.sel := rfl
@[simp] theorem State.clearSticky_half : (s.clearSticky).half = s.half := rfl
@[simp] theorem State.clearSticky_r1 : (s.clearSticky).r1 = s.r1 := rfl
@[simp] theorem State.clearSticky_pcnt : (s.clearSticky).pcnt = s.pcnt := rfl
@[simp] theorem State.clearSticky_bgen : (s.clearSticky).bgen = s.bgen := rfl
@[simp] theorem State.clearSticky_acc : (s.clearSticky).acc = s.acc := rfl
@[simp] theorem State.clearSticky_audit : (s.clearSticky).audit = s.audit := rfl
@[simp] theorem State.clearSticky_hpend : (s.clearSticky).hpend = s.hpend := rfl
@[simp] theorem State.clearSticky_rawlen : (s.clearSticky).rawlen = s.rawlen := rfl
@[simp] theorem State.clearSticky_dig0 : (s.clearSticky).dig0 = s.dig0 := rfl
@[simp] theorem State.clearSticky_candlen : (s.clearSticky).candlen = s.candlen := rfl
@[simp] theorem State.clearSticky_outlen : (s.clearSticky).outlen = s.outlen := rfl
@[simp] theorem State.clearSticky_out : (s.clearSticky).out = s.out := rfl
@[simp] theorem State.clearSticky_ecode : (s.clearSticky).ecode = s.ecode := rfl
@[simp] theorem State.clearSticky_rej : (s.clearSticky).rej = false := rfl
@[simp] theorem State.clearSticky_seq : (s.clearSticky).seq = false := rfl
@[simp] theorem State.clearSticky_ill : (s.clearSticky).ill = false := rfl
@[simp] theorem State.clearSticky_abt : (s.clearSticky).abt = s.abt := rfl
@[simp] theorem State.clearSticky_params : (s.clearSticky).params = s.params := rfl
@[simp] theorem State.clearSticky_hreq : (s.clearSticky).hreq = s.hreq := rfl
@[simp] theorem State.clearSticky_cmds : (s.clearSticky).cmds = s.cmds := rfl
@[simp] theorem State.clearSticky_turns : (s.clearSticky).turns = s.turns := rfl
end clearSticky

section setAbt
variable (v : Bool)
@[simp] theorem State.setAbt_st : (s.setAbt v).st = s.st := rfl
@[simp] theorem State.setAbt_sel : (s.setAbt v).sel = s.sel := rfl
@[simp] theorem State.setAbt_half : (s.setAbt v).half = s.half := rfl
@[simp] theorem State.setAbt_r1 : (s.setAbt v).r1 = s.r1 := rfl
@[simp] theorem State.setAbt_pcnt : (s.setAbt v).pcnt = s.pcnt := rfl
@[simp] theorem State.setAbt_bgen : (s.setAbt v).bgen = s.bgen := rfl
@[simp] theorem State.setAbt_acc : (s.setAbt v).acc = s.acc := rfl
@[simp] theorem State.setAbt_audit : (s.setAbt v).audit = s.audit := rfl
@[simp] theorem State.setAbt_hpend : (s.setAbt v).hpend = s.hpend := rfl
@[simp] theorem State.setAbt_rawlen : (s.setAbt v).rawlen = s.rawlen := rfl
@[simp] theorem State.setAbt_dig0 : (s.setAbt v).dig0 = s.dig0 := rfl
@[simp] theorem State.setAbt_candlen : (s.setAbt v).candlen = s.candlen := rfl
@[simp] theorem State.setAbt_outlen : (s.setAbt v).outlen = s.outlen := rfl
@[simp] theorem State.setAbt_out : (s.setAbt v).out = s.out := rfl
@[simp] theorem State.setAbt_ecode : (s.setAbt v).ecode = s.ecode := rfl
@[simp] theorem State.setAbt_rej : (s.setAbt v).rej = s.rej := rfl
@[simp] theorem State.setAbt_seq : (s.setAbt v).seq = s.seq := rfl
@[simp] theorem State.setAbt_ill : (s.setAbt v).ill = s.ill := rfl
@[simp] theorem State.setAbt_abt : (s.setAbt v).abt = v := rfl
@[simp] theorem State.setAbt_params : (s.setAbt v).params = s.params := rfl
@[simp] theorem State.setAbt_hreq : (s.setAbt v).hreq = s.hreq := rfl
@[simp] theorem State.setAbt_cmds : (s.setAbt v).cmds = s.cmds := rfl
@[simp] theorem State.setAbt_turns : (s.setAbt v).turns = s.turns := rfl
end setAbt

section consume
@[simp] theorem State.consume_st : (s.consume).st = s.st := rfl
@[simp] theorem State.consume_sel : (s.consume).sel = s.sel := rfl
@[simp] theorem State.consume_half : (s.consume).half = s.half := rfl
@[simp] theorem State.consume_r1 : (s.consume).r1 = s.r1 := rfl
@[simp] theorem State.consume_pcnt : (s.consume).pcnt = s.pcnt := rfl
@[simp] theorem State.consume_bgen : (s.consume).bgen = s.bgen := rfl
@[simp] theorem State.consume_acc : (s.consume).acc = s.acc := rfl
@[simp] theorem State.consume_audit : (s.consume).audit = s.audit := rfl
@[simp] theorem State.consume_hpend : (s.consume).hpend = s.hpend := rfl
@[simp] theorem State.consume_rawlen : (s.consume).rawlen = s.rawlen := rfl
@[simp] theorem State.consume_dig0 : (s.consume).dig0 = s.dig0 := rfl
@[simp] theorem State.consume_candlen : (s.consume).candlen = s.candlen := rfl
@[simp] theorem State.consume_outlen : (s.consume).outlen = s.outlen := rfl
@[simp] theorem State.consume_out : (s.consume).out = s.out := rfl
@[simp] theorem State.consume_ecode : (s.consume).ecode = s.ecode := rfl
@[simp] theorem State.consume_rej : (s.consume).rej = s.rej := rfl
@[simp] theorem State.consume_seq : (s.consume).seq = s.seq := rfl
@[simp] theorem State.consume_ill : (s.consume).ill = s.ill := rfl
@[simp] theorem State.consume_abt : (s.consume).abt = s.abt := rfl
@[simp] theorem State.consume_params : (s.consume).params = s.params := rfl
@[simp] theorem State.consume_hreq : (s.consume).hreq = s.hreq := rfl
@[simp] theorem State.consume_cmds : (s.consume).cmds = s.cmds.tail := rfl
@[simp] theorem State.consume_turns : (s.consume).turns = s.turns := rfl
end consume

section raiseFatal
variable (code : BitVec 2)
@[simp] theorem State.raiseFatal_st : (s.raiseFatal code).st = stError := rfl
@[simp] theorem State.raiseFatal_sel : (s.raiseFatal code).sel = s.sel := rfl
@[simp] theorem State.raiseFatal_half : (s.raiseFatal code).half = s.half := rfl
@[simp] theorem State.raiseFatal_r1 : (s.raiseFatal code).r1 = s.r1 := rfl
@[simp] theorem State.raiseFatal_pcnt : (s.raiseFatal code).pcnt = s.pcnt := rfl
@[simp] theorem State.raiseFatal_bgen : (s.raiseFatal code).bgen = s.bgen := rfl
@[simp] theorem State.raiseFatal_acc : (s.raiseFatal code).acc = s.acc := rfl
@[simp] theorem State.raiseFatal_audit : (s.raiseFatal code).audit = s.audit := rfl
@[simp] theorem State.raiseFatal_hpend : (s.raiseFatal code).hpend = s.hpend := rfl
@[simp] theorem State.raiseFatal_rawlen : (s.raiseFatal code).rawlen = s.rawlen := rfl
@[simp] theorem State.raiseFatal_dig0 : (s.raiseFatal code).dig0 = s.dig0 := rfl
@[simp] theorem State.raiseFatal_candlen : (s.raiseFatal code).candlen = s.candlen := rfl
@[simp] theorem State.raiseFatal_outlen : (s.raiseFatal code).outlen = s.outlen := rfl
@[simp] theorem State.raiseFatal_out : (s.raiseFatal code).out = s.out := rfl
@[simp] theorem State.raiseFatal_ecode : (s.raiseFatal code).ecode = code := rfl
@[simp] theorem State.raiseFatal_rej : (s.raiseFatal code).rej = s.rej := rfl
@[simp] theorem State.raiseFatal_seq : (s.raiseFatal code).seq = s.seq := rfl
@[simp] theorem State.raiseFatal_ill : (s.raiseFatal code).ill = s.ill := rfl
@[simp] theorem State.raiseFatal_abt : (s.raiseFatal code).abt = s.abt := rfl
@[simp] theorem State.raiseFatal_params : (s.raiseFatal code).params = s.params := rfl
@[simp] theorem State.raiseFatal_hreq : (s.raiseFatal code).hreq = s.hreq := rfl
@[simp] theorem State.raiseFatal_cmds : (s.raiseFatal code).cmds = s.cmds := rfl
@[simp] theorem State.raiseFatal_turns : (s.raiseFatal code).turns = s.turns := rfl
end raiseFatal

section clearRun
@[simp] theorem State.clearRun_st : (s.clearRun).st = 0 := rfl
@[simp] theorem State.clearRun_sel : (s.clearRun).sel = 0 := rfl
@[simp] theorem State.clearRun_half : (s.clearRun).half = false := rfl
@[simp] theorem State.clearRun_r1 : (s.clearRun).r1 = 0 := rfl
@[simp] theorem State.clearRun_pcnt : (s.clearRun).pcnt = 0 := rfl
@[simp] theorem State.clearRun_bgen : (s.clearRun).bgen = 0 := rfl
@[simp] theorem State.clearRun_acc : (s.clearRun).acc = ofBits 264 (zeros 264) := rfl
@[simp] theorem State.clearRun_audit : (s.clearRun).audit = Vector.replicate 52 0 := rfl
@[simp] theorem State.clearRun_hpend : (s.clearRun).hpend = s.hpend := rfl
@[simp] theorem State.clearRun_rawlen : (s.clearRun).rawlen = 0 := rfl
@[simp] theorem State.clearRun_dig0 : (s.clearRun).dig0 = 0 := rfl
@[simp] theorem State.clearRun_candlen : (s.clearRun).candlen = 0 := rfl
@[simp] theorem State.clearRun_outlen : (s.clearRun).outlen = 0 := rfl
@[simp] theorem State.clearRun_out : (s.clearRun).out = Vector.replicate 32 0 := rfl
@[simp] theorem State.clearRun_ecode : (s.clearRun).ecode = 0 := rfl
@[simp] theorem State.clearRun_rej : (s.clearRun).rej = s.rej := rfl
@[simp] theorem State.clearRun_seq : (s.clearRun).seq = s.seq := rfl
@[simp] theorem State.clearRun_ill : (s.clearRun).ill = s.ill := rfl
@[simp] theorem State.clearRun_abt : (s.clearRun).abt = s.abt := rfl
@[simp] theorem State.clearRun_params : (s.clearRun).params = s.params := rfl
@[simp] theorem State.clearRun_hreq : (s.clearRun).hreq = s.hreq := rfl
@[simp] theorem State.clearRun_cmds : (s.clearRun).cmds = s.cmds := rfl
@[simp] theorem State.clearRun_turns : (s.clearRun).turns = s.turns := rfl
end clearRun

section resetBlock
@[simp] theorem State.resetBlock_st : (s.resetBlock).st = 0 := rfl
@[simp] theorem State.resetBlock_sel : (s.resetBlock).sel = 0 := rfl
@[simp] theorem State.resetBlock_half : (s.resetBlock).half = false := rfl
@[simp] theorem State.resetBlock_r1 : (s.resetBlock).r1 = 0 := rfl
@[simp] theorem State.resetBlock_pcnt : (s.resetBlock).pcnt = 0 := rfl
@[simp] theorem State.resetBlock_bgen : (s.resetBlock).bgen = 0 := rfl
@[simp] theorem State.resetBlock_acc : (s.resetBlock).acc = 0 := rfl
@[simp] theorem State.resetBlock_audit : (s.resetBlock).audit = Vector.replicate 52 0 := rfl
@[simp] theorem State.resetBlock_hpend : (s.resetBlock).hpend = false := rfl
@[simp] theorem State.resetBlock_rawlen : (s.resetBlock).rawlen = 0 := rfl
@[simp] theorem State.resetBlock_dig0 : (s.resetBlock).dig0 = 0 := rfl
@[simp] theorem State.resetBlock_candlen : (s.resetBlock).candlen = 0 := rfl
@[simp] theorem State.resetBlock_outlen : (s.resetBlock).outlen = 0 := rfl
@[simp] theorem State.resetBlock_out : (s.resetBlock).out = Vector.replicate 32 0 := rfl
@[simp] theorem State.resetBlock_ecode : (s.resetBlock).ecode = 0 := rfl
@[simp] theorem State.resetBlock_rej : (s.resetBlock).rej = false := rfl
@[simp] theorem State.resetBlock_seq : (s.resetBlock).seq = false := rfl
@[simp] theorem State.resetBlock_ill : (s.resetBlock).ill = false := rfl
@[simp] theorem State.resetBlock_abt : (s.resetBlock).abt = false := rfl
@[simp] theorem State.resetBlock_params : (s.resetBlock).params = s.params := rfl
@[simp] theorem State.resetBlock_hreq : (s.resetBlock).hreq = none := rfl
@[simp] theorem State.resetBlock_cmds : (s.resetBlock).cmds = s.cmds := rfl
@[simp] theorem State.resetBlock_turns : (s.resetBlock).turns = s.turns := rfl
end resetBlock

section latchDie
variable (d : BitVec 4)
@[simp] theorem State.latchDie_st : (s.latchDie d).st = s.st := rfl
@[simp] theorem State.latchDie_sel : (s.latchDie d).sel = s.sel := rfl
@[simp] theorem State.latchDie_half : (s.latchDie d).half = true := rfl
@[simp] theorem State.latchDie_r1 : (s.latchDie d).r1 = low3 d := rfl
@[simp] theorem State.latchDie_pcnt : (s.latchDie d).pcnt = s.pcnt := rfl
@[simp] theorem State.latchDie_bgen : (s.latchDie d).bgen = s.bgen := rfl
@[simp] theorem State.latchDie_acc : (s.latchDie d).acc = s.acc := rfl
@[simp] theorem State.latchDie_audit : (s.latchDie d).audit = s.audit := rfl
@[simp] theorem State.latchDie_hpend : (s.latchDie d).hpend = s.hpend := rfl
@[simp] theorem State.latchDie_rawlen : (s.latchDie d).rawlen = s.rawlen := rfl
@[simp] theorem State.latchDie_dig0 : (s.latchDie d).dig0 = s.dig0 := rfl
@[simp] theorem State.latchDie_candlen : (s.latchDie d).candlen = s.candlen := rfl
@[simp] theorem State.latchDie_outlen : (s.latchDie d).outlen = s.outlen := rfl
@[simp] theorem State.latchDie_out : (s.latchDie d).out = s.out := rfl
@[simp] theorem State.latchDie_ecode : (s.latchDie d).ecode = s.ecode := rfl
@[simp] theorem State.latchDie_rej : (s.latchDie d).rej = s.rej := rfl
@[simp] theorem State.latchDie_seq : (s.latchDie d).seq = s.seq := rfl
@[simp] theorem State.latchDie_ill : (s.latchDie d).ill = s.ill := rfl
@[simp] theorem State.latchDie_abt : (s.latchDie d).abt = s.abt := rfl
@[simp] theorem State.latchDie_params : (s.latchDie d).params = s.params := rfl
@[simp] theorem State.latchDie_hreq : (s.latchDie d).hreq = s.hreq := rfl
@[simp] theorem State.latchDie_cmds : (s.latchDie d).cmds = s.cmds := rfl
@[simp] theorem State.latchDie_turns : (s.latchDie d).turns = s.turns := rfl
end latchDie

section appendPair
variable (d : BitVec 4) (a : Bits) (b : Nat)
@[simp] theorem State.appendPair_st : (s.appendPair d a b).st = s.st := rfl
@[simp] theorem State.appendPair_sel : (s.appendPair d a b).sel = s.sel := rfl
@[simp] theorem State.appendPair_half : (s.appendPair d a b).half = false := rfl
@[simp] theorem State.appendPair_r1 : (s.appendPair d a b).r1 = 0 := rfl
@[simp] theorem State.appendPair_pcnt : (s.appendPair d a b).pcnt = BitVec.ofNat 6 (s.pcnt.toNat + 1) := rfl
@[simp] theorem State.appendPair_bgen : (s.appendPair d a b).bgen = BitVec.ofNat 9 b := rfl
@[simp] theorem State.appendPair_acc : (s.appendPair d a b).acc = ofBits 264 (a ++ zeros (264 - b)) := rfl
@[simp] theorem State.appendPair_audit : (s.appendPair d a b).audit = s.audit.setIfInBounds s.pcnt.toNat (auditEntry s.r1 d) := rfl
@[simp] theorem State.appendPair_hpend : (s.appendPair d a b).hpend = s.hpend := rfl
@[simp] theorem State.appendPair_rawlen : (s.appendPair d a b).rawlen = s.rawlen := rfl
@[simp] theorem State.appendPair_dig0 : (s.appendPair d a b).dig0 = s.dig0 := rfl
@[simp] theorem State.appendPair_candlen : (s.appendPair d a b).candlen = s.candlen := rfl
@[simp] theorem State.appendPair_outlen : (s.appendPair d a b).outlen = s.outlen := rfl
@[simp] theorem State.appendPair_out : (s.appendPair d a b).out = s.out := rfl
@[simp] theorem State.appendPair_ecode : (s.appendPair d a b).ecode = s.ecode := rfl
@[simp] theorem State.appendPair_rej : (s.appendPair d a b).rej = s.rej := rfl
@[simp] theorem State.appendPair_seq : (s.appendPair d a b).seq = s.seq := rfl
@[simp] theorem State.appendPair_ill : (s.appendPair d a b).ill = s.ill := rfl
@[simp] theorem State.appendPair_abt : (s.appendPair d a b).abt = s.abt := rfl
@[simp] theorem State.appendPair_params : (s.appendPair d a b).params = s.params := rfl
@[simp] theorem State.appendPair_hreq : (s.appendPair d a b).hreq = s.hreq := rfl
@[simp] theorem State.appendPair_cmds : (s.appendPair d a b).cmds = s.cmds := rfl
@[simp] theorem State.appendPair_turns : (s.appendPair d a b).turns = s.turns := rfl
end appendPair

section endCollect
variable (a : Bits)
@[simp] theorem State.endCollect_st : (s.endCollect a).st = stHashWait := rfl
@[simp] theorem State.endCollect_sel : (s.endCollect a).sel = s.sel := rfl
@[simp] theorem State.endCollect_half : (s.endCollect a).half = s.half := rfl
@[simp] theorem State.endCollect_r1 : (s.endCollect a).r1 = s.r1 := rfl
@[simp] theorem State.endCollect_pcnt : (s.endCollect a).pcnt = s.pcnt := rfl
@[simp] theorem State.endCollect_bgen : (s.endCollect a).bgen = s.bgen := rfl
@[simp] theorem State.endCollect_acc : (s.endCollect a).acc = s.acc := rfl
@[simp] theorem State.endCollect_audit : (s.endCollect a).audit = s.audit := rfl
@[simp] theorem State.endCollect_hpend : (s.endCollect a).hpend = true := rfl
@[simp] theorem State.endCollect_rawlen : (s.endCollect a).rawlen = BitVec.ofNat 6 ((trunc8 a).length / 8) := rfl
@[simp] theorem State.endCollect_dig0 : (s.endCollect a).dig0 = s.dig0 := rfl
@[simp] theorem State.endCollect_candlen : (s.endCollect a).candlen = s.candlen := rfl
@[simp] theorem State.endCollect_outlen : (s.endCollect a).outlen = s.outlen := rfl
@[simp] theorem State.endCollect_out : (s.endCollect a).out = s.out := rfl
@[simp] theorem State.endCollect_ecode : (s.endCollect a).ecode = s.ecode := rfl
@[simp] theorem State.endCollect_rej : (s.endCollect a).rej = s.rej := rfl
@[simp] theorem State.endCollect_seq : (s.endCollect a).seq = s.seq := rfl
@[simp] theorem State.endCollect_ill : (s.endCollect a).ill = s.ill := rfl
@[simp] theorem State.endCollect_abt : (s.endCollect a).abt = s.abt := rfl
@[simp] theorem State.endCollect_params : (s.endCollect a).params = s.params := rfl
@[simp] theorem State.endCollect_hreq : (s.endCollect a).hreq = some (hashReq s.params.hashIf (bytes (trunc8 a))) := rfl
@[simp] theorem State.endCollect_cmds : (s.endCollect a).cmds = s.cmds := rfl
@[simp] theorem State.endCollect_turns : (s.endCollect a).turns = s.turns := rfl
end endCollect

section answered
@[simp] theorem State.answered_st : (s.answered).st = s.st := rfl
@[simp] theorem State.answered_sel : (s.answered).sel = s.sel := rfl
@[simp] theorem State.answered_half : (s.answered).half = s.half := rfl
@[simp] theorem State.answered_r1 : (s.answered).r1 = s.r1 := rfl
@[simp] theorem State.answered_pcnt : (s.answered).pcnt = s.pcnt := rfl
@[simp] theorem State.answered_bgen : (s.answered).bgen = s.bgen := rfl
@[simp] theorem State.answered_acc : (s.answered).acc = s.acc := rfl
@[simp] theorem State.answered_audit : (s.answered).audit = s.audit := rfl
@[simp] theorem State.answered_hpend : (s.answered).hpend = false := rfl
@[simp] theorem State.answered_rawlen : (s.answered).rawlen = s.rawlen := rfl
@[simp] theorem State.answered_dig0 : (s.answered).dig0 = s.dig0 := rfl
@[simp] theorem State.answered_candlen : (s.answered).candlen = s.candlen := rfl
@[simp] theorem State.answered_outlen : (s.answered).outlen = s.outlen := rfl
@[simp] theorem State.answered_out : (s.answered).out = s.out := rfl
@[simp] theorem State.answered_ecode : (s.answered).ecode = s.ecode := rfl
@[simp] theorem State.answered_rej : (s.answered).rej = s.rej := rfl
@[simp] theorem State.answered_seq : (s.answered).seq = s.seq := rfl
@[simp] theorem State.answered_ill : (s.answered).ill = s.ill := rfl
@[simp] theorem State.answered_abt : (s.answered).abt = s.abt := rfl
@[simp] theorem State.answered_params : (s.answered).params = s.params := rfl
@[simp] theorem State.answered_hreq : (s.answered).hreq = none := rfl
@[simp] theorem State.answered_cmds : (s.answered).cmds = s.cmds := rfl
@[simp] theorem State.answered_turns : (s.answered).turns = s.turns := rfl
end answered

end Sys2Proof.Machine
end

