-- ==== Sys2Proof/Laws/Ops.lean ====
section
/-! SUPPORT. What each shared operation can do, said once: the checks in front of a step, the acceptance of a word, the
commands' rules, and the response. -/

namespace Sys2Proof.Machine

theorem legal_iff (s : State) : s.legal = true ↔ s.st.toNat ≤ 4 := by simp [State.legal]

theorem held_iff (s : State) : s.held = true ↔ s.st = 0#3 ∧ s.hpend = true := by simp [State.held]

theorem accepts_iff (s : State) : Accepts s ↔ s.legal = true ∧ s.held = false := by
  rw [legal_iff, ← Bool.not_eq_true, held_iff, Accepts]

theorem cmdReady_iff (s : State) : s.cmdReady = true ↔ Accepts s := by
  simp [State.cmdReady, accepts_iff]

theorem inLegal_of_legal {s : State} (n : State) (h : s.st.toNat ≤ 4) : inLegal s n = .next n := by
  simp [inLegal, (legal_iff s).2 h]

theorem inLegal_of_illegal {s : State} (n : State) (h : 5 ≤ s.st.toNat) : inLegal s n = .refused .illegalState := by
  have : s.legal = false := by simp [State.legal]; omega
  simp [inLegal, this]

/-- A guarded step answers a next state only in a legal state, and then the one it was given. -/
theorem inLegal_next {s n t : State} (h : inLegal s n = .next t) : s.st.toNat ≤ 4 ∧ t = n := by
  unfold inLegal at h
  split at h
  · exact ⟨(legal_iff s).1 ‹_›, by injection h with h; exact h.symm⟩
  · cases h

theorem accept_of_accepts {s : State} (rule : State → State) (h : Accepts s) :
    accept rule s = .next (rule s.consume) := by
  rw [accept, inLegal_of_legal _ h.1, ((accepts_iff s).1 h).2]
  rfl

theorem accept_of_held {s : State} (rule : State → State) (h0 : s.st = 0#3) (hp : s.hpend = true) :
    accept rule s = .next s := by
  rw [accept, inLegal_of_legal _ (by simp [h0]), (held_iff s).2 ⟨h0, hp⟩]
  rfl

theorem accept_of_illegal {s : State} (rule : State → State) (h : 5 ≤ s.st.toNat) :
    accept rule s = .refused .illegalState := inLegal_of_illegal _ h

/-- An offered word is either accepted, with its rule's whole effect, or held, with no effect. -/
theorem accept_next {rule : State → State} {s t : State} (h : accept rule s = .next t) :
    (Accepts s ∧ t = rule s.consume) ∨ (s.st = 0#3 ∧ s.hpend = true ∧ t = s) := by
  obtain ⟨hl, rfl⟩ := inLegal_next h
  cases hh : s.held with
  | false => exact .inl ⟨(accepts_iff s).2 ⟨(legal_iff s).2 hl, hh⟩, rfl⟩
  | true => exact .inr ⟨((held_iff s).1 hh).1, ((held_iff s).1 hh).2, rfl⟩

/-- What a command does once it is accepted. -/
def instrRule : Instr → State → State
  | .nop => nopRule
  | .start sel => startRule sel
  | .roll d => rollRule d
  | .cancel => cancelRule
  | .ack => ackRule

/-- What a word does once it is accepted. -/
def wordRule (w : Word) : State → State :=
  match decode w with
  | .instr i => instrRule i
  | .illegal _ => illegalRule

theorem exec_eq_accept (i : Instr) (s : State) : exec i s = accept (instrRule i) s := by
  cases i <;> rfl

theorem offer_eq_accept (w : Word) (s : State) : offer w s = accept (wordRule w) s := by
  unfold offer wordRule
  cases decode w with
  | instr i => exact exec_eq_accept i s
  | illegal why => rfl

theorem selValid_iff (sel : BitVec 4) : selValid sel = true ↔ 1 ≤ sel.toNat ∧ sel.toNat ≤ 5 := by simp [selValid]

theorem dieValid_iff (d : BitVec 4) : dieValid d = true ↔ 1 ≤ d.toNat ∧ d.toNat ≤ 6 := by simp [dieValid]

/-- START, accepted, in its three cases. -/
theorem startRule_cases (sel : BitVec 4) (s : State) :
    (s.st ≠ 0#3 ∧ startRule sel s = s.flagSeq) ∨
    (s.st = 0#3 ∧ selValid sel = true ∧
      startRule sel s = { s.clearSticky.setAbt false with sel := low3 sel, st := stCollect }) ∨
    (s.st = 0#3 ∧ selValid sel = false ∧ startRule sel s = (s.clearSticky.setAbt false).raiseFatal ecodeCfg) := by
  unfold startRule startRun
  by_cases h : s.st = 0#3
  · cases hv : selValid sel <;> simp [h]
  · exact .inl ⟨h, if_neg h⟩

/-- ACK, accepted, in its two cases. -/
theorem ackRule_cases (s : State) :
    ((s.st = 3#3 ∨ s.st = 4#3) ∧ ackRule s = s.clearRun) ∨
    (¬(s.st = 3#3 ∨ s.st = 4#3) ∧ ackRule s = s.flagSeq) := by
  unfold ackRule
  by_cases h : s.st = stDone ∨ s.st = stError
  · exact .inl ⟨h, if_pos h⟩
  · exact .inr ⟨h, if_neg h⟩

/-- ROLL, accepted, in its four cases. -/
theorem rollRule_cases (d : BitVec 4) (s : State) :
    (s.st ≠ 1#3 ∧ rollRule d s = s.flagSeq) ∨
    (s.st = 1#3 ∧ dieValid d = false ∧ rollRule d s = s.flagRej) ∨
    (s.st = 1#3 ∧ dieValid d = true ∧ s.half = false ∧ rollRule d s = s.latchDie d) ∨
    (s.st = 1#3 ∧ dieValid d = true ∧ s.half = true ∧ rollRule d s = s.completePair d) := by
  unfold rollRule
  by_cases h : s.st = 1#3
  · cases hv : dieValid d <;> cases hh : s.half <;> simp [h]
  · exact .inl ⟨h, if_neg h⟩

/-- The second roll of a pair, with and without the end of collection. -/
theorem completePair_cases (d : BitVec 4) (s : State) :
    ∃ t, t = s.appendPair d (s.withPair d) (s.bgen.toNat + s.pairRoom) ∧
      ((t.collectionOver = false ∧ s.completePair d = t) ∨
       (t.collectionOver = true ∧ s.completePair d = t.endCollect (s.withPair d))) := by
  refine ⟨_, rfl, ?_⟩
  unfold State.completePair
  cases h : (s.appendPair d (s.withPair d) (s.bgen.toNat + s.pairRoom)).collectionOver <;> simp [h]

/-- The response in its three cases. -/
theorem hashRsp_cases (digest : BitVec 256) (err : Bool) (s : State) :
    (s.st ≠ 2#3 ∧ hashRsp digest err s = s.answered) ∨
    (s.st = 2#3 ∧ err = true ∧ hashRsp digest err s = s.answered.raiseFatal ecodeHash) ∨
    (s.st = 2#3 ∧ err = false ∧ hashRsp digest err s = s.answered.finish digest) := by
  unfold hashRsp
  by_cases h : s.st = 2#3
  · cases err <;> simp [h]
  · exact .inl ⟨h, if_neg h⟩

end Sys2Proof.Machine
end

