-- ==== Sys2Proof/Laws/Collect.lean ====
section
/-! SUPPORT. The strength table's arithmetic, and what completing a pair does in a state that meets the invariant. -/

namespace Sys2Proof.Machine

/-- What every row of the table gives, row 0 and the unused selectors included. -/
theorem strength_bounds (sel : BitVec 3) :
    (strength sel).pn ≤ 52 ∧ 5 * (strength sel).pn ≤ (strength sel).tb ∧ (strength sel).tb ≤ 264 := by
  revert sel
  decide +kernel

/-- What the rows of the five strengths give. -/
theorem strength_of_valid (sel : BitVec 3) (h : 1 ≤ sel.toNat ∧ sel.toNat ≤ 5) :
    5 * (strength sel).pn < (strength sel).tb ∧ 5 * (strength sel).pn / 8 = (strength sel).eb ∧
    5 * (strength sel).pn = (strength sel).mb ∧ 2 * (strength sel).pn = (strength sel).rl ∧
    (strength sel).s = 8 * (strength sel).eb ∧ 16 ≤ (strength sel).eb ∧ (strength sel).eb ≤ 32 ∧
    canon (strength sel).eb = (strength sel).eb ∧ (strength sel).cb ≤ 8 ∧ ((strength sel).cb = 8 ↔ sel = 5#3) ∧
    (sel = 5#3 → (strength sel).eb = 32) := by
  revert sel
  decide +kernel

/-- A pair never fills the accumulator past its target. -/
theorem bgen_add_pairRoom {s : State} (hb : s.bgen.toNat ≤ (strength s.sel).tb) :
    s.pairRoom ≤ 5 ∧ s.bgen.toNat + s.pairRoom ≤ (strength s.sel).tb ∧ s.bgen.toNat + s.pairRoom ≤ 264 := by
  have ht := (strength_bounds s.sel).2.2
  unfold State.pairRoom
  omega

theorem length_withPair {s : State} (hb : s.bgen.toNat ≤ (strength s.sel).tb) (d : BitVec 4) :
    (s.withPair d).length = s.bgen.toNat + s.pairRoom := by
  have := bgen_add_pairRoom hb
  simp [State.withPair, State.accLive]
  omega

/-- What `appendPair` writes, read back, for every room the accumulator may have left. -/
theorem appendPair_spec {s : State} (hb : s.bgen.toNat ≤ (strength s.sel).tb) (hp : s.pcnt.toNat < 52) (d : BitVec 4)
    (t : State) (ht : t = s.appendPair d (s.withPair d) (s.bgen.toNat + s.pairRoom)) :
    t.pcnt.toNat = s.pcnt.toNat + 1 ∧ t.bgen.toNat = s.bgen.toNat + s.pairRoom ∧
    bitsOf t.acc = s.withPair d ++ zeros (264 - (s.bgen.toNat + s.pairRoom)) ∧ t.accLive = s.withPair d ∧
    (∀ i, i < 264 → t.bgen.toNat ≤ i → t.acc.getMsbD i = false) ∧
    t.audit[s.pcnt.toNat]? = some (auditEntry s.r1 d) ∧
    (∀ n, n ≠ s.pcnt.toNat → t.audit[n]? = s.audit[n]?) := by
  have hl := length_withPair hb d
  have hr := bgen_add_pairRoom hb
  subst ht
  have hp1 : (s.appendPair d (s.withPair d) (s.bgen.toNat + s.pairRoom)).pcnt.toNat = s.pcnt.toNat + 1 := by
    simp
    omega
  have hb1 : (s.appendPair d (s.withPair d) (s.bgen.toNat + s.pairRoom)).bgen.toNat = s.bgen.toNat + s.pairRoom := by
    simp
    omega
  have ha : bitsOf (s.appendPair d (s.withPair d) (s.bgen.toNat + s.pairRoom)).acc =
      s.withPair d ++ zeros (264 - (s.bgen.toNat + s.pairRoom)) := by
    simp only [State.appendPair_acc]
    exact bitsOf_ofBits _ _ (by simp [hl]; omega)
  refine ⟨hp1, hb1, ha, ?_, ?_, ?_, ?_⟩
  · rw [State.accLive, ha, hb1, ← hl, List.take_left]
  · intro i hi1 hi2
    rw [← getElem_bitsOf _ i (by simpa using hi1)]
    simp only [ha]
    rw [List.getElem_append_right (by omega)]
    simp [zeros]
  · simp [hp]
  · intro n hn
    simp only [State.appendPair_audit]
    rw [Vector.getElem?_setIfInBounds_ne (by omega)]

/-- What `endCollect` leaves in RAWLEN, and that the raw bits are the message it sent. -/
theorem endCollect_spec {s : State} (hb : s.bgen.toNat ≤ (strength s.sel).tb) (hp : s.pcnt.toNat < 52) (d : BitVec 4)
    (t u : State) (ht : t = s.appendPair d (s.withPair d) (s.bgen.toNat + s.pairRoom))
    (hu : u = t.endCollect (s.withPair d)) :
    u.rawlen.toNat = (s.bgen.toNat + s.pairRoom) / 8 ∧ u.rawBits = trunc8 (s.withPair d) ∧ u.acc = t.acc := by
  obtain ⟨-, -, a3, -⟩ := appendPair_spec hb hp d t ht
  have hl := length_withPair hb d
  have hr := bgen_add_pairRoom hb
  have e : u.rawlen.toNat = (s.bgen.toNat + s.pairRoom) / 8 := by
    subst hu
    simp [hl]
    omega
  have ea : u.acc = t.acc := by subst hu; rfl
  refine ⟨e, ?_, ea⟩
  rw [State.rawBits, ea, a3, e, trunc8, hl, List.take_append_of_le_length (by omega)]

/-- A run in progress is within the ranges of PCNT and BGEN, and every pair finds room for its 5 bits. -/
theorem collect_ranges {s : State} (hi : BlockInv s) (h1 : s.st = 1#3) :
    s.bgen.toNat ≤ (strength s.sel).tb ∧ s.pcnt.toNat < 52 ∧ s.pairRoom = 5 := by
  have hp := (hi.collecting h1).1
  have ht := strength_bounds s.sel
  have hs := (strength_of_valid s.sel (hi.running (.inl h1))).1
  have hf := hi.fivePerPair
  unfold State.pairRoom
  omega

/-- Collection ends on the pair count: the bit target is not reached before it. -/
theorem collectionOver_iff {s : State} (hi : BlockInv s) (h1 : s.st = 1#3) (d : BitVec 4) (t : State)
    (ht : t = s.appendPair d (s.withPair d) (s.bgen.toNat + s.pairRoom)) :
    (t.collectionOver = true ↔ t.pcnt.toNat = (strength s.sel).pn) ∧ t.bgen.toNat < (strength s.sel).tb ∧
    t.sel = s.sel := by
  obtain ⟨hb, hp, hr⟩ := collect_ranges hi h1
  obtain ⟨-, a2, -⟩ := appendPair_spec hb hp d t ht
  have hsel : t.sel = s.sel := by subst ht; rfl
  have hs := (strength_of_valid s.sel (hi.running (.inl h1))).1
  have hp := (hi.collecting h1).1
  have hf := hi.fivePerPair
  have hb : t.bgen.toNat < (strength s.sel).tb := by omega
  have hn : ¬(strength s.sel).tb ≤ t.bgen.toNat := by omega
  refine ⟨?_, hb, hsel⟩
  simp only [State.collectionOver, hsel, decide_eq_true_eq, hn, or_false]

/-- An audit entry written for two valid rolls: both nibbles are in range, and it stands for the pair's symbol. -/
theorem auditEntry_ok (r1 : BitVec 3) (d : BitVec 4) (h1 : 1 ≤ r1.toNat ∧ r1.toNat ≤ 6) (hd : dieValid d = true) :
    auditEntryOk (auditEntry r1 d) = true ∧ entrySymbol (auditEntry r1 d) = pairSymbol r1.toNat d.toNat := by
  revert r1 d
  decide

/-- The registers completing a pair never writes, and its two ends. -/
theorem completePair_keeps (d : BitVec 4) (s : State) :
    (s.completePair d).sel = s.sel ∧ (s.completePair d).params = s.params ∧ (s.completePair d).cmds = s.cmds ∧
    (s.completePair d).turns = s.turns ∧ (s.completePair d).ecode = s.ecode ∧
    ((s.completePair d).st = s.st ∧ (s.completePair d).hpend = s.hpend ∧ (s.completePair d).hreq = s.hreq ∨
      (s.completePair d).st = 2#3 ∧ (s.completePair d).hpend = true) := by
  obtain ⟨t, ht, ⟨-, e⟩ | ⟨-, e⟩⟩ := completePair_cases d s <;> subst ht <;> rw [e] <;> simp

/-- The registers a response never writes, and its three ends. -/
theorem hashRsp_keeps (digest : BitVec 256) (err : Bool) (s : State) :
    (hashRsp digest err s).sel = s.sel ∧ (hashRsp digest err s).params = s.params ∧
    (hashRsp digest err s).cmds = s.cmds ∧ (hashRsp digest err s).turns = s.turns ∧
    (hashRsp digest err s).hpend = false ∧ (hashRsp digest err s).hreq = none ∧
    (s.st ≠ 2#3 ∧ hashRsp digest err s = s.answered ∨
      s.st = 2#3 ∧ err = true ∧ (hashRsp digest err s).st = 4#3 ∧ (hashRsp digest err s).ecode = 2#2 ∨
      s.st = 2#3 ∧ err = false ∧ (hashRsp digest err s).st = 3#3 ∧ (hashRsp digest err s).ecode = s.ecode) := by
  rcases hashRsp_cases digest err s with ⟨h, e⟩ | ⟨h, h', e⟩ | ⟨h, h', e⟩ <;> rw [e] <;> simp [State.finish, *]

/-- An accepted word, in its ten cases. -/
theorem wordRule_cases (w : Word) (s : State) :
    wordRule w s = s ∨ wordRule w s = s.flagSeq ∨ wordRule w s = s.flagIll ∨ (s.st = 1#3 ∧ wordRule w s = s.flagRej) ∨
    (s.st = 0#3 ∧ ∃ sel, decode w = .instr (.start sel) ∧ selValid sel = true ∧
      wordRule w s = { s.clearSticky.setAbt false with sel := low3 sel, st := stCollect }) ∨
    (s.st = 0#3 ∧ ∃ sel, decode w = .instr (.start sel) ∧ selValid sel = false ∧
      wordRule w s = (s.clearSticky.setAbt false).raiseFatal ecodeCfg) ∨
    (decode w = .instr .cancel ∧ wordRule w s = cancelRule s) ∨
    ((s.st = 3#3 ∨ s.st = 4#3) ∧ decode w = .instr .ack ∧ wordRule w s = s.clearRun) ∨
    (s.st = 1#3 ∧ s.half = false ∧ ∃ d, decode w = .instr (.roll d) ∧ dieValid d = true ∧
      wordRule w s = s.latchDie d) ∨
    (s.st = 1#3 ∧ s.half = true ∧ ∃ d, decode w = .instr (.roll d) ∧ dieValid d = true ∧
      wordRule w s = s.completePair d) := by
  unfold wordRule
  cases hd : decode w with
  | illegal why => exact .inr (.inr (.inl rfl))
  | instr i =>
    cases i with
    | nop => exact .inl rfl
    | start sel =>
      simp only [instrRule, Decoded.instr.injEq, Instr.start.injEq]
      rcases startRule_cases sel s with ⟨-, e⟩ | ⟨h0, hv, e⟩ | ⟨h0, hv, e⟩
      · exact .inr (.inl e)
      · exact .inr (.inr (.inr (.inr (.inl ⟨h0, sel, rfl, hv, e⟩))))
      · exact .inr (.inr (.inr (.inr (.inr (.inl ⟨h0, sel, rfl, hv, e⟩)))))
    | cancel => exact .inr (.inr (.inr (.inr (.inr (.inr (.inl ⟨rfl, rfl⟩))))))
    | ack =>
      rcases ackRule_cases s with ⟨h, e⟩ | ⟨-, e⟩
      · exact .inr (.inr (.inr (.inr (.inr (.inr (.inr (.inl ⟨h, rfl, e⟩)))))))
      · exact .inr (.inl e)
    | roll d =>
      simp only [instrRule, Decoded.instr.injEq, Instr.roll.injEq]
      rcases rollRule_cases d s with ⟨-, e⟩ | ⟨h1, -, e⟩ | ⟨h1, hv, hh, e⟩ | ⟨h1, hv, hh, e⟩
      · exact .inr (.inl e)
      · exact .inr (.inr (.inr (.inl ⟨h1, e⟩)))
      · exact .inr (.inr (.inr (.inr (.inr (.inr (.inr (.inr (.inl ⟨h1, hh, d, rfl, hv, e⟩))))))))
      · exact .inr (.inr (.inr (.inr (.inr (.inr (.inr (.inr (.inr ⟨h1, hh, d, rfl, hv, e⟩))))))))

end Sys2Proof.Machine
end

