-- ==== Sys2Proof/Laws/PerInstr.lean ====
section
/-! SUPPORT. The family RoundTrip, one lemma per command: a command's word decodes to the command. -/

namespace Sys2Proof.Laws

def RoundTrip.Statement (i : Instr) : Prop := i.wf = true → decode (encode i) = .instr i

theorem opField_append (op arg : BitVec 4) : opField (op ++ arg) = op := by
  revert op arg; decide

theorem argField_append (op arg : BitVec 4) : argField (op ++ arg) = arg := by
  revert op arg; decide

theorem RoundTrip.nop : RoundTrip.Statement .nop := fun _ => by decide

theorem RoundTrip.start (sel : BitVec 4) : RoundTrip.Statement (.start sel) := fun _ => by
  simp [encode, decode, opField_append, argField_append]

theorem RoundTrip.roll (d : BitVec 4) : RoundTrip.Statement (.roll d) := fun _ => by
  simp [encode, decode, opField_append, argField_append]

theorem RoundTrip.cancel : RoundTrip.Statement .cancel := fun _ => by decide

theorem RoundTrip.ack : RoundTrip.Statement .ack := fun _ => by decide

end Sys2Proof.Laws
end

