-- ==== Sys2Proof/Laws/ReadPort.lean ====
section
/-! SUPPORT. The read port, one lemma per window of the address map (20_memory.md R56). -/

namespace Sys2Proof.Machine

theorem regRead_info (a : BitVec 8) (s : State) (h : a.toNat < 0x10) :
    regRead a s = s.infoBytes.getD a.toNat 0 := by
  simp [regRead, h]

theorem regRead_out (s : State) (n : Nat) (h : n < 32) :
    regRead (BitVec.ofNat 8 (0x20 + n)) s = s.out[n] := by
  have e : (BitVec.ofNat 8 (0x20 + n)).toNat = 0x20 + n := by simp; omega
  rw [regRead, e, if_neg (by omega), if_neg (by omega), if_pos (by omega), Nat.add_sub_cancel_left]
  simp [h]

theorem regRead_audit (s : State) (n : Nat) (h : n < 52) :
    regRead (BitVec.ofNat 8 (0x40 + n)) s = s.audit[n] := by
  have e : (BitVec.ofNat 8 (0x40 + n)).toNat = 0x40 + n := by simp; omega
  rw [regRead, e, if_neg (by omega), if_neg (by omega), if_neg (by omega), if_pos (by omega),
    Nat.add_sub_cancel_left]
  simp [h]

theorem regRead_acc (s : State) (k : Nat) (h : k ≤ 32) :
    regRead (BitVec.ofNat 8 (0x80 + k)) s = s.accByte k := by
  have e : (BitVec.ofNat 8 (0x80 + k)).toNat = 0x80 + k := by simp; omega
  rw [regRead, e, if_neg (by omega), if_neg (by omega), if_neg (by omega), if_neg (by omega), if_neg (by omega),
    if_pos (by omega), Nat.add_sub_cancel_left]

/-- Byte `k` of the window is the byte the accumulator's bits `8k .. 8k+7` write (20_memory.md R62). -/
theorem accByte_eq_ofBits (s : State) (k : Nat) (h : k ≤ 32) :
    s.accByte k = ofBits 8 (((bitsOf s.acc).drop (8 * k)).take 8) :=
  extractLsb'_eq_byte s.acc k (by omega)

theorem getMsbD_accByte (s : State) (k j : Nat) (h : k ≤ 32) (hj : j < 8) :
    (s.accByte k).getMsbD j = s.acc.getMsbD (8 * k + j) := by
  rw [accByte_eq_ofBits s k h, getMsbD_ofBits 8 _ (by simp; omega) j hj]
  simp

end Sys2Proof.Machine
end

