-- ==== Sys2Proof/Laws/Step.lean ====
section
/-! SUPPORT. What one step of the machine can do, said once. -/

namespace Sys2Proof.Machine

theorem step_no_turn {s : State} (h : s.turns = []) : step s = inLegal s s := by
  simp [step, machineStep, h]

theorem step_host {s : State} {ts : List Turn} (h : s.turns = .host :: ts) :
    step s = hostStep { s with turns := ts } := by
  simp [step, machineStep, h, agentStep]

theorem step_engine {s : State} {err : Bool} {ts : List Turn} (h : s.turns = .engine err :: ts) :
    step s = engineStep err { s with turns := ts } := by
  simp [step, machineStep, h, agentStep]

theorem step_rst {s : State} {ts : List Turn} (h : s.turns = .rst :: ts) :
    step s = .next ({ s with turns := ts } : State).resetBlock := by
  simp [step, machineStep, h, agentStep, resetStep]

/-- The host's step is to offer its first word. -/
theorem step_host_word {s : State} {w : Word} {ws : List Word} {ts : List Turn} (h : s.turns = .host :: ts)
    (hw : s.cmds = w :: ws) : step s = accept (wordRule w) { s with turns := ts } := by
  rw [step_host h, ← offer_eq_accept]
  simp [hostStep, hw]

theorem engineReady_iff (s : State) (err : Bool) :
    s.engineReady err = true ↔
      s.hpend = true ∧ s.hreq.isSome = true ∧ (err = true → s.params.hashFail = true) := by
  cases err <;> simp [State.engineReady, and_assoc]

/-- The engine's step in a legal state: the response to the request it holds, or nothing. -/
theorem engineStep_cases (err : Bool) (s : State) :
    (s.engineReady err = false ∧ engineStep err s = inLegal s s) ∨
    (∃ r, s.hreq = some r ∧ s.engineReady err = true ∧
      engineStep err s = inLegal s (hashRsp r.digest err s)) := by
  unfold engineStep
  cases hr : s.hreq with
  | none => exact .inl ⟨by simp [State.engineReady, hr], rfl⟩
  | some r =>
    cases he : s.engineReady err with
    | false => exact .inl ⟨rfl, by simp⟩
    | true => exact .inr ⟨r, rfl, rfl, by simp⟩

/-- Every step that answers a next state is one of four: nothing but the turn passes; the host's first word is accepted;
the engine answers; reset. -/
theorem step_cases {s t : State} (h : step s = .next t) :
    (s.st.toNat ≤ 4 ∧ t = { s with turns := s.turns.tail }) ∨
    (∃ w ws, Accepts s ∧ s.turns = .host :: s.turns.tail ∧ s.cmds = w :: ws ∧
      t = wordRule w { s with turns := s.turns.tail, cmds := ws }) ∨
    (∃ err r, s.st.toNat ≤ 4 ∧ s.turns = .engine err :: s.turns.tail ∧ s.hreq = some r ∧ s.engineReady err = true ∧
      t = hashRsp r.digest err { s with turns := s.turns.tail }) ∨
    (s.turns = .rst :: s.turns.tail ∧ t = ({ s with turns := s.turns.tail } : State).resetBlock) := by
  cases hts : s.turns with
  | nil =>
    rw [step_no_turn hts] at h
    obtain ⟨hl, rfl⟩ := inLegal_next h
    exact .inl ⟨hl, by rw [List.tail_nil, ← hts]⟩
  | cons turn ts =>
    cases turn with
    | host =>
      cases hc : s.cmds with
      | nil =>
        rw [step_host hts] at h
        simp only [hostStep, hc] at h
        obtain ⟨hl, rfl⟩ := inLegal_next h
        exact .inl ⟨hl, by simp⟩
      | cons w ws =>
        rw [step_host_word hts hc] at h
        rcases accept_next h with ⟨ha, rfl⟩ | ⟨h0, -, rfl⟩
        · exact .inr (.inl ⟨w, ws, ha, rfl, rfl, by simp [State.consume, hc]⟩)
        · exact .inl ⟨by simp_all, by simp [hc]⟩
    | engine err =>
      rw [step_engine hts] at h
      rcases engineStep_cases err { s with turns := ts } with ⟨-, he⟩ | ⟨r, hr, hrdy, he⟩
      · rw [he] at h
        obtain ⟨hl, rfl⟩ := inLegal_next h
        exact .inl ⟨hl, rfl⟩
      · rw [he] at h
        obtain ⟨hl, rfl⟩ := inLegal_next h
        exact .inr (.inr (.inl ⟨err, r, hl, rfl, hr, hrdy, rfl⟩))
    | rst =>
      rw [step_rst hts] at h
      injection h with h
      exact .inr (.inr (.inr ⟨rfl, h.symm⟩))

end Sys2Proof.Machine
end

