-- ==== Sys2Proof/Tests/Slice0.lean ====
section
/-! SUPPORT. Tests: words and results from the spec (30_encoding.md, 95_test_vectors.md), the refusals of the
well-formedness checks, and a witness for every statement that has hypotheses. -/

namespace Sys2Proof.Machine.Tests

set_option Elab.async false

/-! ## Small states -/

/-- COLLECT with `pairs` pairs (1, 1) taken, which the symbol 0 packs into zero bits. -/
def runAt (sel : BitVec 3) (pairs : Nat) : State :=
  { State.reset with
    st := 1, sel := sel, pcnt := BitVec.ofNat 6 pairs, bgen := BitVec.ofNat 9 (5 * pairs)
    audit := Vector.ofFn fun n => if n.val < pairs then 0x11 else 0 }

/-- The same with the first roll of the next pair latched. -/
def halfAt (sel : BitVec 3) (pairs : Nat) (r1 : BitVec 3) : State := { runAt sel pairs with half := true, r1 := r1 }

/-- HASH_WAIT after `pairs` pairs (1, 1): the message is `n` zero bytes. -/
def waitAt (sel : BitVec 3) (pairs n : Nat) : State :=
  { runAt sel pairs with
    st := 2, rawlen := BitVec.ofNat 6 n, hpend := true, hreq := some (hashReq .msg (List.replicate n 0)) }

/-- DONE after a run of 128 bits, its digest byte left 0. -/
def doneState : State :=
  { waitAt 1 26 16 with st := 3, hpend := false, hreq := none, candlen := 16, outlen := 16 }

def cfgError : State := { State.reset with st := 4, ecode := 1 }

def hashError : State := { waitAt 1 26 16 with st := 4, ecode := 2, hpend := false, hreq := none }

/-- IDLE after a CANCEL in HASH_WAIT. -/
def heldState : State :=
  { State.reset with abt := true, hpend := true, hreq := some (hashReq .msg (List.replicate 16 0)) }

def withTurn (s : State) (t : Turn) : State := { s with turns := [t] }

/-- The bytes read at some addresses after a step that goes on. -/
def readsAfter (r : Result) (as : List (BitVec 8)) : Option (List Byte) :=
  match r with
  | .next t => some (as.map (regRead · t))
  | _ => none

/-! ## Well-formedness: an ill-formed term for each check -/

theorem test_wf_start_operand : (Asm.start 15).wf = true ∧ (Asm.start 16).wf = false := by decide
theorem test_wf_roll_operand : (Asm.roll 15).wf = true ∧ (Asm.roll 16).wf = false := by decide
theorem test_wf_pair_operands :
    (Asm.pair 15 15).wf = true ∧ (Asm.pair 16 1).wf = false ∧ (Asm.pair 1 16).wf = false := by decide
theorem test_wf_rolls_operands : (Asm.rolls [1, 15]).wf = true ∧ (Asm.rolls [1, 16, 2]).wf = false := by decide
theorem test_wf_word_operand : (Asm.word 255).wf = true ∧ (Asm.word 256).wf = false := by decide
theorem test_wf_read_operand : (Asm.read 255).wf = true ∧ (Asm.read 256).wf = false := by decide
theorem test_wf_nested :
    (Asm.rep 2 (.seq (.roll 1) (.start 16))).wf = false ∧ (Asm.seq (.word 256) .ack).wf = false ∧
    (Asm.rep 2 (.seq (.roll 1) .waitEvt)).wf = true := by decide
theorem test_wf_command_all : (Instr.start 15).wf = true ∧ (Instr.roll 0).wf = true := by decide

/-! ## Decoding: words from V-E1 -/

theorem test_decode_nop : decode 0b0000_0000 = .instr .nop ∧ decode 0b0000_0001 = .illegal .argNotZero ∧
    decode 0b0000_1111 = .illegal .argNotZero := by decide
theorem test_decode_start : decode 0b0001_0000 = .instr (.start 0) ∧ decode 0b0001_0101 = .instr (.start 5) ∧
    decode 0b0001_1111 = .instr (.start 15) := by decide
theorem test_decode_roll : decode 0b0010_0000 = .instr (.roll 0) ∧ decode 0b0010_0110 = .instr (.roll 6) ∧
    decode 0b0010_1111 = .instr (.roll 15) := by decide
theorem test_decode_cancel : decode 0b0011_0000 = .instr .cancel ∧ decode 0b0011_0001 = .illegal .argNotZero ∧
    decode 0b0011_1111 = .illegal .argNotZero := by decide
theorem test_decode_ack : decode 0b0100_0000 = .instr .ack ∧ decode 0b0100_0001 = .illegal .argNotZero ∧
    decode 0b0100_1111 = .illegal .argNotZero := by decide
theorem test_decode_reserved : decode 0x50 = .illegal .reservedOpcode ∧ decode 0x80 = .illegal .reservedOpcode ∧
    decode 0xFF = .illegal .reservedOpcode := by decide
theorem test_decode_table_word : decodeTableWord 8 0x26 = some (.roll 6) ∧ decodeTableWord 8 0x31 = none := by decide

/-! ## One step, with the results of 95_test_vectors.md -/

/-- V-C2, row 3, through the step itself. -/
theorem test_step_start : readsAfter (step (State.reset.withFetchWord 8 0x13)) [0x00, 0x02, 0x03, 0x05, 0x09] =
    some [0x01, 0x03, 0x18, 0x27, 0xC6] := by decide +kernel

/-- V-C2, row 5. -/
theorem test_start_5 : readsAfter (exec (.start 5) State.reset) [0x00, 0x04, 0x05, 0x09, 0x0A] =
    some [0x01, 0x08, 0x34, 0x08, 0x01] := by decide +kernel

/-- V-C3. -/
theorem test_start_bad_selector : readsAfter (exec (.start 6) State.reset) [0x00, 0x01, 0x02, 0x05] =
    some [0x44, 0x01, 0x00, 0x00] := by decide +kernel

/-- V-C8. -/
theorem test_nop : readsAfter (exec .nop (halfAt 1 1 4)) [0x00, 0x01, 0x06, 0x0B] = some [0x09, 0x00, 0x01, 0x04] := by
  decide +kernel

/-- V-E2. -/
theorem test_illegal_word : readsAfter (step (State.reset.withFetchWord 8 0x31)) [0x00, 0x01] = some [0x00, 0x10] := by
  decide +kernel

/-- V-R1, step 2. -/
theorem test_roll_second : readsAfter (exec (.roll 6) (halfAt 1 0 4)) [0x00, 0x06, 0x07, 0x0B, 0x80, 0x40] =
    some [0x01, 0x01, 0x05, 0x00, 0xB8, 0x46] := by decide +kernel

/-- 41_collect.md R124: the symbol 35 as the first pair, under LOW5 (00011). -/
theorem test_roll_low5 :
    readsAfter (exec (.roll 6) { halfAt 1 0 6 with params := { Config.defaults with symOvf := .low5 } }) [0x80] =
      some [0x18] := by decide +kernel

/-- V-C6, HASH_WAIT. -/
theorem test_cancel_waiting : readsAfter (exec .cancel (waitAt 1 26 16)) [0x00, 0x01, 0x06, 0x0C, 0x40] =
    some [0x30, 0x00, 0x00, 0x00, 0x00] := by decide +kernel

/-- V-C7, DONE. -/
theorem test_ack_done : readsAfter (exec .ack doneState) [0x00, 0x02, 0x06, 0x0E, 0x40] = some [0, 0, 0, 0, 0] := by
  decide +kernel

/-- V-C7, COLLECT. -/
theorem test_ack_collect : readsAfter (exec .ack (runAt 1 3)) [0x00, 0x01, 0x06] = some [0x01, 0x08, 0x03] := by
  decide +kernel

/-- V-F3. -/
theorem test_canon : [18, 19, 22, 26, 30, 31].map canon = [16, 20, 20, 24, 28, 32] := by decide

/-! ## Witnesses: states and operands that meet the hypotheses of the statements -/

theorem inv_reset : BlockInv State.reset := by
  constructor
  case collected => unfold Collected; decide +kernel
  case idle => exact fun _ => by constructor <;> decide +kernel
  case noResult => exact fun _ => by constructor <;> decide +kernel
  all_goals decide +kernel

theorem inv_first_pair : BlockInv (runAt 1 0) := by
  constructor
  case collected => unfold Collected; decide +kernel
  case idle => exact fun h => absurd h (by decide +kernel)
  case noResult => exact fun _ => by constructor <;> decide +kernel
  all_goals decide +kernel

theorem inv_half_first : BlockInv (halfAt 1 0 6) := by
  constructor
  case collected => unfold Collected; decide +kernel
  case idle => exact fun h => absurd h (by decide +kernel)
  case noResult => exact fun _ => by constructor <;> decide +kernel
  all_goals decide +kernel

theorem inv_half_mid : BlockInv (halfAt 3 7 1) := by
  constructor
  case collected => unfold Collected; decide +kernel
  case idle => exact fun h => absurd h (by decide +kernel)
  case noResult => exact fun _ => by constructor <;> decide +kernel
  all_goals decide +kernel

theorem inv_half_last : BlockInv (halfAt 1 25 1) := by
  constructor
  case collected => unfold Collected; decide +kernel
  case idle => exact fun h => absurd h (by decide +kernel)
  case noResult => exact fun _ => by constructor <;> decide +kernel
  all_goals decide +kernel

theorem inv_half_last_256 : BlockInv (halfAt 5 51 6) := by
  constructor
  case collected => unfold Collected; decide +kernel
  case idle => exact fun h => absurd h (by decide +kernel)
  case noResult => exact fun _ => by constructor <;> decide +kernel
  all_goals decide +kernel

theorem inv_waiting : BlockInv (waitAt 1 26 16) := by
  constructor
  case collected => unfold Collected; decide +kernel
  case idle => exact fun h => absurd h (by decide +kernel)
  case noResult => exact fun _ => by constructor <;> decide +kernel
  all_goals decide +kernel

theorem inv_waiting_no_failure :
    BlockInv { waitAt 1 26 16 with params := { Config.defaults with hashFail := false } } := by
  constructor
  case collected => unfold Collected; decide +kernel
  case idle => exact fun h => absurd h (by decide +kernel)
  case noResult => exact fun _ => by constructor <;> decide +kernel
  all_goals decide +kernel

theorem inv_waiting_256 : BlockInv (waitAt 5 52 32) := by
  constructor
  case collected => unfold Collected; decide +kernel
  case idle => exact fun h => absurd h (by decide +kernel)
  case noResult => exact fun _ => by constructor <;> decide +kernel
  all_goals decide +kernel

theorem inv_done : BlockInv doneState := by
  constructor
  case collected => unfold Collected; decide +kernel
  case idle => exact fun h => absurd h (by decide +kernel)
  case noResult => exact fun h => absurd (by decide +kernel) h
  all_goals decide +kernel

theorem inv_cfg_error : BlockInv cfgError := by
  constructor
  case collected => unfold Collected; decide +kernel
  case idle => exact fun h => absurd h (by decide +kernel)
  case noResult => exact fun _ => by constructor <;> decide +kernel
  all_goals decide +kernel

theorem inv_hash_error : BlockInv hashError := by
  constructor
  case collected => unfold Collected; decide +kernel
  case idle => exact fun h => absurd h (by decide +kernel)
  case noResult => exact fun _ => by constructor <;> decide +kernel
  all_goals decide +kernel

theorem inv_held : BlockInv heldState := by
  constructor
  case collected => unfold Collected; decide +kernel
  case idle => exact fun _ => by constructor <;> decide +kernel
  case noResult => exact fun _ => by constructor <;> decide +kernel
  all_goals decide +kernel

/-- A turn added to a state changes nothing the invariant is about. -/
theorem inv_withTurn {s : State} (h : BlockInv s) (ts : List Turn) (ws : List Word) :
    BlockInv { s with turns := ts, cmds := ws } :=
  { h with
    idle := fun x => { h.idle x with }
    noResult := fun x => { h.noResult x with } }

theorem witness_OpcodeMapDecodes :
    (0x00 : Word) &&& 0xFF = 0x00 ∧ (0x1F : Word) &&& 0xF0 = 0x10 ∧ (0x20 : Word) &&& 0xF0 = 0x20 ∧
    (0x30 : Word) &&& 0xFF = 0x30 ∧ (0x40 : Word) &&& 0xFF = 0x40 ∧ 0x01 ≤ (0x01 : Word).toNat ∧
    (0x0F : Word).toNat ≤ 0x0F ∧ (0x31 : Word).toNat ≤ 0x3F ∧ (0x4F : Word).toNat ≤ 0x4F ∧ 0x50 ≤ (0x50 : Word).toNat ∧
    0x50 ≤ (0xFF : Word).toNat := by decide

theorem witness_EncodeDecodeAgree : (Instr.start 15).wf = true ∧ decode 0x2F = .instr (.roll 15) := by decide

theorem witness_AssemblerExpandsLines : (0 : Nat) ≤ 15 ∧ (15 : Nat) ≤ 15 := by decide

/-- The operands at the ends of their range (R82). -/
theorem test_assemble_operands :
    (Asm.start 0).assemble = [0x10] ∧ (Asm.start 15).assemble = [0x1F] ∧ (Asm.roll 0).assemble = [0x20] ∧
    (Asm.roll 15).assemble = [0x2F] := by decide

theorem witness_StepRunsDecodedCommand :
    (State.reset.offerNext 0x11).turns = [.host] ∧ (State.reset.offerNext 0x11).cmds = [0x11] ∧
    decode 0x11 = .instr (.start 1) := by decide +kernel

theorem witness_IllegalWordOnlyFlags :
    (doneState.offerNext 0x31).turns = [.host] ∧ (doneState.offerNext 0x31).cmds = [0x31] ∧
    decode 0x31 = .illegal .argNotZero ∧ Accepts (doneState.offerNext 0x31) ∧
    (heldState.offerNext 0xFF).turns = [.host] ∧ (heldState.offerNext 0xFF).cmds = [0xFF] ∧
    decode 0xFF = .illegal .reservedOpcode ∧ (heldState.offerNext 0xFF).st = 0#3 ∧
    (heldState.offerNext 0xFF).hpend = true := by unfold Accepts; decide +kernel

theorem witness_NopDoesNothing :
    Accepts State.reset ∧ Accepts (waitAt 1 26 16) ∧ Accepts cfgError := by unfold Accepts; decide +kernel

theorem witness_StartBeginsRun :
    Accepts (runAt 1 0) ∧ (runAt 1 0).st ≠ 0#3 ∧ Accepts cfgError ∧ heldState.st = 0#3 ∧ heldState.hpend = true ∧
    State.reset.st = 0#3 ∧ State.reset.hpend = false ∧ (1 ≤ (1#4).toNat ∧ (5#4).toNat ≤ 5) ∧
    ¬(1 ≤ (0#4).toNat ∧ (0#4).toNat ≤ 5) ∧ ¬(1 ≤ (6#4).toNat ∧ (6#4).toNat ≤ 5) := by unfold Accepts; decide +kernel

theorem witness_CancelAbortsRun :
    heldState.st = 0#3 ∧ heldState.hpend = true ∧ Accepts (waitAt 1 26 16) ∧ Accepts State.reset ∧
    Accepts hashError := by unfold Accepts; decide +kernel

theorem witness_AckClearsEndState :
    doneState.st = 3#3 ∧ hashError.st = 4#3 ∧ Accepts (waitAt 1 26 16) ∧
    ¬((waitAt 1 26 16).st = 3#3 ∨ (waitAt 1 26 16).st = 4#3) ∧ BlockInv doneState ∧
    ∃ t, exec .ack doneState = .next t :=
  ⟨rfl, rfl, by unfold Accepts; decide +kernel, by decide +kernel, inv_done, _, rfl⟩

theorem witness_CommandOutOfPlaceFlagsSeq :
    Accepts doneState ∧ doneState.st ≠ 0#3 ∧ doneState.st ≠ 1#3 ∧ Accepts (runAt 1 0) ∧ (runAt 1 0).st ≠ 3#3 ∧
    (runAt 1 0).st ≠ 4#3 := by unfold Accepts; decide +kernel

theorem witness_HoldUntilAnswered :
    heldState.st = 0#3 ∧ heldState.hpend = true ∧ (withTurn heldState .host).turns = [.host] ∧
    (withTurn heldState (.engine true)).turns = [.engine true] ∧ (withTurn heldState (.engine true)).hreq.isSome = true ∧
    (withTurn heldState (.engine true)).params.hashFail = true ∧ (withTurn heldState .rst).turns = [.rst] := by
  decide +kernel

theorem witness_BadDieOnlyFlagsRej :
    (halfAt 1 0 6).st = 1#3 ∧ ¬(1 ≤ (0#4).toNat ∧ (0#4).toNat ≤ 6) ∧ ¬(1 ≤ (7#4).toNat ∧ (7#4).toNat ≤ 6) := by
  decide +kernel

theorem witness_FirstRollIsLatched :
    (runAt 1 0).st = 1#3 ∧ (runAt 1 0).half = false ∧ 1 ≤ (1#4).toNat ∧ (6#4).toNat ≤ 6 := by decide +kernel

/-- A second roll that finds room for two bits only: BGEN is past what its pairs give, which no run reaches. -/
def nearTarget : State := { halfAt 1 3 4 with bgen := 130 }

/-- The first pair, the last, and one with room for two bits. -/
theorem witness_SecondRollPacksPair :
    ((halfAt 1 0 6).st = 1#3 ∧ (halfAt 1 0 6).half = true ∧ (halfAt 1 0 6).r1.toNat = 6 ∧
      (halfAt 1 0 6).pcnt.toNat < 52 ∧ (halfAt 1 0 6).bgen.toNat ≤ (strength 1).tb) ∧
    ((halfAt 5 51 1).st = 1#3 ∧ (halfAt 5 51 1).half = true ∧ (halfAt 5 51 1).r1.toNat = 1 ∧
      (halfAt 5 51 1).pcnt.toNat < 52 ∧ (halfAt 5 51 1).bgen.toNat ≤ (strength 5).tb) ∧
    (nearTarget.st = 1#3 ∧ nearTarget.half = true ∧ nearTarget.r1.toNat = 4 ∧ nearTarget.pcnt.toNat < 52 ∧
      nearTarget.bgen.toNat ≤ (strength 1).tb ∧ (strength 1).tb - nearTarget.bgen.toNat = 2) ∧
    1 ≤ (1#4).toNat ∧ (6#4).toNat ≤ 6 := by decide +kernel

/-- R125: only the two leading bits of the symbol 23 (10111) are kept, and the target is then reached. -/
theorem test_roll_capped : readsAfter (exec (.roll 6) nearTarget) [0x00, 0x07, 0x0C, 0x90] =
    some [0x12, 0x84, 0x10, 0x20] := by decide +kernel

theorem witness_EndOfCollection_on_pairs :
    (halfAt 1 25 1).bgen.toNat ≤ (strength 1).tb ∧ (halfAt 1 25 1).pcnt.toNat < 52 ∧
    ∃ t, exec (.roll 6) (halfAt 1 25 1) = .next t ∧ t.pcnt.toNat = (strength 1).pn :=
  ⟨by decide +kernel, by decide +kernel, _, rfl, by decide +kernel⟩

theorem witness_EndOfCollection_on_bits :
    ∃ t, exec (.roll 6) nearTarget = .next t ∧ (strength 1).tb ≤ t.bgen.toNat :=
  ⟨_, rfl, by decide +kernel⟩

theorem witness_EndOfCollection_continues :
    (halfAt 3 7 1).bgen.toNat ≤ (strength 3).tb ∧ (halfAt 3 7 1).pcnt.toNat < 52 ∧
    ∃ t, exec (.roll 1) (halfAt 3 7 1) = .next t ∧
      ¬(t.pcnt.toNat = (strength 3).pn ∨ (strength 3).tb ≤ t.bgen.toNat) :=
  ⟨by decide +kernel, by decide +kernel, _, rfl, by decide +kernel⟩

theorem witness_EndOfCollection_request :
    ∃ t, step ((halfAt 1 25 1).offerNext 0x26) = .next t ∧ t.hreq.isSome = true ∧
      t.hreq ≠ ((halfAt 1 25 1).offerNext 0x26).hreq :=
  ⟨_, rfl, by decide +kernel⟩

theorem witness_RunEndsOnPairCount :
    BlockInv (halfAt 5 51 6) ∧ (halfAt 5 51 6).st = 1#3 ∧ (halfAt 5 51 6).half = true ∧
    ∃ t, exec (.roll 6) (halfAt 5 51 6) = .next t ∧ t.st = 2#3 :=
  ⟨inv_half_last_256, rfl, rfl, _, rfl, by decide +kernel⟩

theorem witness_ValidDiceCountDown :
    BlockInv (runAt 1 0) ∧ (runAt 1 0).st = 1#3 ∧ BlockInv (halfAt 1 25 1) ∧ (halfAt 1 25 1).st = 1#3 ∧
    1 ≤ (1#4).toNat ∧ (6#4).toNat ≤ 6 :=
  ⟨inv_first_pair, rfl, inv_half_last, rfl, by decide, by decide⟩

theorem witness_CollectionPacksDiceStream :
    BlockInv (runAt 1 0) ∧ (runAt 1 0).st = 1#3 ∧ (runAt 1 0).taken = 0 ∧
    ((7#4 :: List.replicate 52 6#4).filter fun d => decide (1 ≤ d.toNat ∧ d.toNat ≤ 6)).length = (strength 1).rl :=
  ⟨inv_first_pair, rfl, by decide +kernel, by decide +kernel⟩

theorem witness_SymbolEncoding : bin5 31 = numeral 5 31 ∧ (32 ≤ 35 ∧ 35 ≤ 35) ∧ sym5 .low5 0 = sym5 .low5 0 ∧ 31 ≤ 31 := by decide

theorem witness_SymbolTable : 35 < 36 ∧ 31 < 32 := by decide

theorem witness_StrengthTableFormulas : 1 ≤ (1#3).toNat ∧ (5#3).toNat ≤ 5 := by decide

theorem witness_RequestCarriesMessage :
    (List.replicate 33 (0xA5 : Byte)).length ≤ 33 ∧ ([] : List Byte).length ≤ 33 ∧
    32 < (List.replicate 33 (0xA5 : Byte)).length ∧ 8 * (List.replicate 32 (0xA5 : Byte)).length ≤ 256 := by decide

theorem witness_BlockModePadsMessage : (List.replicate 33 (0xA5 : Byte)).length ≤ 33 := by decide

theorem witness_ResponseStep_waiting :
    BlockInv (withTurn (waitAt 1 26 16) (.engine false)) ∧
    BlockInv (withTurn (waitAt 5 52 32) (.engine true)) ∧
    (withTurn (waitAt 5 52 32) (.engine true)).st = 2#3 ∧
    (withTurn (waitAt 5 52 32) (.engine true)).params.hashFail = true :=
  ⟨inv_withTurn inv_waiting _ _, inv_withTurn inv_waiting_256 _ _, rfl, rfl⟩

theorem witness_ResponseStep_other :
    BlockInv (withTurn heldState (.engine true)) ∧ (withTurn heldState (.engine true)).st ≠ 2#3 ∧
    (withTurn heldState (.engine true)).hpend = true ∧ BlockInv (withTurn doneState (.engine false)) ∧
    (withTurn doneState (.engine false)).hpend = false :=
  ⟨inv_withTurn inv_held _ _, by decide +kernel, rfl, inv_withTurn inv_done _ _, rfl⟩

/-- A failure that the build excludes. -/
theorem witness_ResponseStep_excluded :
    BlockInv (withTurn { waitAt 1 26 16 with params := { Config.defaults with hashFail := false } } (.engine true)) ∧
    (withTurn { waitAt 1 26 16 with params := { Config.defaults with hashFail := false } } (.engine true)).turns =
      [.engine true] ∧
    (withTurn { waitAt 1 26 16 with params := { Config.defaults with hashFail := false } } (.engine true)).params.hashFail =
      false :=
  ⟨inv_withTurn inv_waiting_no_failure _ _, rfl, rfl⟩

theorem witness_LateResponseDiscarded : heldState.st ≠ 2#3 ∧ heldState.hpend = true := by decide +kernel

theorem witness_ChecksumBits : (8 : Nat) ≤ 8 ∧ digestByte ((0x37 : BitVec 256) <<< 248) 0 = 0x37 := by decide +kernel

theorem witness_CandidateBytes :
    (zeros 128).length % 8 = 0 ∧ (zeros 7).length < 8 ∧ (zeros 256).length % 8 = 0 ∧ (zeros 8).length = 8 ∧
    1 ≤ (1#3).toNat ∧ (4#3).toNat ≤ 4 := by decide +kernel

theorem witness_CanonicalLength : 16 ∈ [16, 20, 24, 28, 32] ∧ 34 ≤ 34 := by decide

theorem witness_FitToLength :
    16 ≤ (List.replicate 16 (1 : Byte)).length ∧ (List.replicate 15 (1 : Byte)).length < 16 ∧
    31 < min (List.replicate 33 (1 : Byte)).length 32 ∧
    ({ State.reset with out := outBuffer (fit (List.replicate 33 1) 32) } : State).out =
      outBuffer (fit (List.replicate 33 1) 32) := ⟨by decide, by decide, by decide, rfl⟩

theorem witness_CompleteRunResult :
    BlockInv (withTurn (waitAt 5 52 32) (.engine false)) ∧ (withTurn (waitAt 5 52 32) (.engine false)).st = 2#3 ∧
    (withTurn (waitAt 5 52 32) (.engine false)).turns = [.engine false] ∧ 31 < (strength 5).eb ∧
    (strength 1).eb ≤ 31 :=
  ⟨inv_withTurn inv_waiting_256 _ _, rfl, rfl, by decide, by decide⟩

theorem witness_DigestReachesOnlyDig0 : BlockInv (waitAt 1 26 16) ∧ (waitAt 1 26 16).st = 2#3 := ⟨inv_waiting, rfl⟩

theorem witness_HashFailureOnlyFromResponse :
    (waitAt 1 26 16).st = 2#3 ∧ heldState.st ≠ 2#3 ∧ (withTurn (waitAt 1 26 16) (.engine true)).ecode ≠ 2#2 ∧
    ∃ t, step (withTurn (waitAt 1 26 16) (.engine true)) = .next t ∧ t.ecode = 2#2 :=
  ⟨rfl, by decide +kernel, by decide +kernel, _, rfl, rfl⟩

theorem witness_ConfigErrorOnlyFromStart :
    State.reset.st = 0#3 ∧ State.reset.hpend = false ∧ ¬(1 ≤ (0#4).toNat ∧ (0#4).toNat ≤ 5) ∧
    ¬(1 ≤ (6#4).toNat ∧ (6#4).toNat ≤ 5) ∧ BlockInv (State.reset.offerNext 0x16) ∧ (State.reset.offerNext 0x16).ecode ≠ 1#2 ∧
    ∃ t, step (State.reset.offerNext 0x16) = .next t ∧ t.ecode = 1#2 :=
  ⟨rfl, rfl, by decide, by decide, inv_withTurn inv_reset _ _, by decide +kernel, _, rfl, rfl⟩

theorem witness_ErrorLeftOnlyByAckOrCancel :
    BlockInv (hashError.offerNext 0x40) ∧ (hashError.offerNext 0x40).st = 4#3 ∧
    (∃ t, step (hashError.offerNext 0x40) = .next t ∧ t.st = 0#3) ∧
    BlockInv (cfgError.offerNext 0x21) ∧ (∃ t, step (cfgError.offerNext 0x21) = .next t ∧ t.st = 4#3 ∧ t.seq = true) :=
  ⟨inv_withTurn inv_hash_error _ _, rfl, ⟨_, rfl, rfl⟩, inv_withTurn inv_cfg_error _ _, _, rfl, rfl, rfl⟩

theorem witness_EventOutputEdges :
    (∃ t, step (withTurn (waitAt 1 26 16) (.engine false)) = .next t ∧ (waitAt 1 26 16).evt = false ∧ t.evt = true) ∧
    (∃ t, step (State.reset.offerNext 0x10) = .next t ∧ State.reset.evt = false ∧ t.evt = true) ∧
    (∃ t, step (doneState.offerNext 0x30) = .next t ∧ doneState.evt = true ∧ t.evt = false) :=
  ⟨⟨_, rfl, rfl, rfl⟩, ⟨_, rfl, rfl, rfl⟩, _, rfl, rfl, rfl⟩

theorem witness_ResponseOrders : BlockInv (waitAt 5 52 32) ∧ (waitAt 5 52 32).st = 2#3 := ⟨inv_waiting_256, rfl⟩

theorem witness_FlagsChangeOnlyAsListed_set :
    (∃ t, step ((runAt 1 0).offerNext 0x20) = .next t ∧ (runAt 1 0).rej = false ∧ t.rej = true) ∧
    (∃ t, step (doneState.offerNext 0x21) = .next t ∧ doneState.seq = false ∧ t.seq = true) ∧
    (∃ t, step (cfgError.offerNext 0xFF) = .next t ∧ cfgError.ill = false ∧ t.ill = true) ∧
    (∃ t, step (State.reset.offerNext 0x30) = .next t ∧ State.reset.abt = false ∧ t.abt = true) :=
  ⟨⟨_, rfl, rfl, rfl⟩, ⟨_, rfl, rfl, rfl⟩, ⟨_, rfl, rfl, rfl⟩, _, rfl, rfl, rfl⟩

/-- IDLE after a CANCEL, with SEQ and ILL set; and COLLECT with REJ set. -/
theorem witness_FlagsChangeOnlyAsListed_cleared :
    (∃ t, step (({ State.reset with seq := true, ill := true, abt := true } : State).offerNext 0x12) = .next t ∧
      t.seq = false ∧ t.ill = false ∧ t.abt = false) ∧
    (∃ t, step (({ runAt 1 0 with rej := true } : State).offerNext 0x30) = .next t ∧ t.rej = false) :=
  ⟨⟨_, rfl, rfl, rfl, rfl⟩, _, rfl, rfl⟩

theorem witness_StickyFlagsDecideNothing : ∃ t, step ((runAt 1 0).offerNext 0x27) = .next t ∧ t.rej = true := ⟨_, rfl, rfl⟩

theorem witness_AuditIsNeverRead :
    ∃ t, step ((halfAt 1 0 6).offerNext 0x21) = .next t ∧ t.audit[0]? = some 0x61 := ⟨_, rfl, by decide +kernel⟩

theorem witness_StepKeepsInvariant :
    BlockInv ((halfAt 1 25 1).offerNext 0x26) ∧
    ∃ t, step ((halfAt 1 25 1).offerNext 0x26) = .next t ∧ t.st = 2#3 :=
  ⟨inv_withTurn inv_half_last _ _, _, rfl, by decide +kernel⟩

theorem witness_AccumulatorIsSymbolStream :
    BlockInv ((halfAt 3 7 1).offerNext 0x26) ∧ StreamInv ((halfAt 3 7 1).offerNext 0x26) ∧
    ∃ t, step ((halfAt 3 7 1).offerNext 0x26) = .next t ∧ t.pcnt = 8#6 :=
  ⟨inv_withTurn inv_half_mid _ _, by unfold StreamInv; decide +kernel, _, rfl, by decide +kernel⟩

theorem witness_ResultIsSymbolStream :
    BlockInv (withTurn (waitAt 1 26 16) (.engine false)) ∧ StreamInv (withTurn (waitAt 1 26 16) (.engine false)) ∧
    ResultInv (withTurn (waitAt 1 26 16) (.engine false)) ∧
    ∃ t, step (withTurn (waitAt 1 26 16) (.engine false)) = .next t ∧ t.st = 3#3 :=
  ⟨inv_withTurn inv_waiting _ _, by unfold StreamInv; decide +kernel, fun h => absurd h (by decide +kernel), _, rfl, rfl⟩

theorem witness_SelectorFixedDuringRun :
    ∃ t, step ((runAt 3 7).offerNext 0x11) = .next t ∧ (runAt 3 7).st ≠ 0#3 ∧ t.st ≠ 0#3 :=
  ⟨_, rfl, by decide +kernel, by decide +kernel⟩

theorem witness_OneRequestOutstanding :
    (BlockInv ((halfAt 1 25 1).offerNext 0x26) ∧ (halfAt 1 25 1).hpend = false ∧
      ∃ t, step ((halfAt 1 25 1).offerNext 0x26) = .next t ∧ t.hpend = true) ∧
    (BlockInv ((waitAt 1 26 16).offerNext 0x30) ∧ (waitAt 1 26 16).hpend = true ∧
      ∃ t, step ((waitAt 1 26 16).offerNext 0x30) = .next t ∧ t.hpend = true) :=
  ⟨⟨inv_withTurn inv_half_last _ _, rfl, _, rfl, by decide +kernel⟩, inv_withTurn inv_waiting _ _, rfl, _, rfl, rfl⟩

theorem witness_WordsAcceptedInOrder :
    (∃ t, step (State.reset.offerNext 0x11) = .next t ∧ t.cmds = []) ∧
    (∃ t, step (heldState.offerNext 0x11) = .next t ∧ t.cmds = [0x11]) ∧
    (∃ t, step (withTurn State.reset (.engine false)) = .next t ∧
      ¬∃ ts w ws, (withTurn State.reset (.engine false)).turns = .host :: ts ∧
        (withTurn State.reset (.engine false)).cmds = w :: ws) :=
  ⟨⟨_, rfl, rfl⟩, ⟨_, rfl, rfl⟩, _, rfl, by simp [withTurn, State.reset]⟩

/-- No turn left, and a host's turn with no word. -/
theorem witness_WordsAcceptedInOrder_waiting :
    (∃ t, step (runAt 3 7) = .next t ∧ (runAt 3 7).turns = []) ∧
    (∃ t, step (withTurn (runAt 3 7) .host) = .next t ∧ (withTurn (runAt 3 7) .host).turns = [.host] ∧
      (withTurn (runAt 3 7) .host).cmds = []) :=
  ⟨⟨_, rfl, rfl⟩, _, rfl, rfl, rfl⟩

theorem witness_StopsOnlyInIllegalState :
    cfgError.st.toNat ≤ 4 ∧ 5 ≤ ({ State.reset with st := 5 } : State).st.toNat ∧
    5 ≤ ({ State.reset with st := 7 } : State).st.toNat := by decide +kernel

theorem witness_ParametersAreFixed : ∃ t, step (withTurn State.reset .rst) = .next t := ⟨_, rfl⟩

theorem witness_ResetStep :
    (withTurn doneState .rst).turns = [.rst] ∧ (withTurn { doneState with st := 7 } .rst).turns = [.rst] := ⟨rfl, rfl⟩

theorem witness_OutAndAuditWindows :
    BlockInv hashError ∧ hashError.st ≠ 3#3 ∧ 31 < 32 ∧ BlockInv (runAt 1 0) ∧ (runAt 1 0).pcnt.toNat ≤ 0 ∧
    BlockInv (waitAt 1 26 16) ∧ (waitAt 1 26 16).pcnt.toNat ≤ 51 :=
  ⟨inv_hash_error, by decide +kernel, by decide, inv_first_pair, by decide +kernel, inv_waiting, by decide +kernel⟩

theorem witness_AccWindow :
    BlockInv (waitAt 5 52 32) ∧ (waitAt 5 52 32).bgen.toNat ≤ 8 * 32 + 7 ∧ (waitAt 5 52 32).st = 2#3 ∧
    31 < (waitAt 5 52 32).rawlen.toNat := ⟨inv_waiting_256, by decide +kernel, rfl, by decide +kernel⟩

theorem witness_ReservedReadsZero :
    0x10 ≤ (0x10#8).toNat ∧ (0x1F#8).toNat ≤ 0x1F ∧ 0x74 ≤ (0x74#8).toNat ∧ (0x7F#8).toNat ≤ 0x7F ∧
    0xA1 ≤ (0xA1#8).toNat ∧ 0xA1 ≤ (0xFF#8).toNat := by decide

theorem witness_ReadPortShowsEveryRegister :
    ∀ a : BitVec 8, regRead a doneState = regRead a { doneState with cmds := [0x40] } := fun _ => rfl

end Sys2Proof.Machine.Tests
end

section
/-! PROOF. The statements of 00_scope.md: a step runs the command it decodes, and no step writes the build's parameters. -/

namespace Sys2Proof.Machine

theorem wordRule_of_decode {w : Word} {i : Instr} (h : decode w = .instr i) : wordRule w = instrRule i := by
  simp [wordRule, h]

/-- Settles O5: the host's turn offers the word, and a word that decodes to a command goes by that command's rule. -/
theorem stepRunsDecodedCommand : Obligations.StepRunsDecodedCommand := by
  intro s w ws ts i hturn hcmds hdec
  rw [step_host_word hturn hcmds, wordRule_of_decode hdec, exec_eq_accept]

@[simp] theorem completePair_params (d : BitVec 4) (s : State) : (s.completePair d).params = s.params :=
  (completePair_keeps d s).2.1

/-- No accepted word writes the parameters: in each of its cases the state it leaves is built from `s` by operations that
keep them. -/
@[simp] theorem wordRule_params (w : Word) (s : State) : (wordRule w s).params = s.params := by
  rcases wordRule_cases w s with e | e | e | ⟨-, e⟩ | ⟨-, sel, -, -, e⟩ | ⟨-, sel, -, -, e⟩ | ⟨-, e⟩ | ⟨-, -, e⟩ |
    ⟨-, -, d, -, -, e⟩ | ⟨-, -, d, -, -, e⟩ <;> simp [e, cancelRule]

@[simp] theorem hashRsp_params (digest : BitVec 256) (err : Bool) (s : State) :
    (hashRsp digest err s).params = s.params :=
  (hashRsp_keeps digest err s).2.1

/-- Settles O49, along the four things a step can do: a passed turn, an accepted word, the engine's response and reset
each keep the parameters. -/
theorem parametersAreFixed : Obligations.ParametersAreFixed := by
  intro s t h
  rcases step_cases h with ⟨-, rfl⟩ | ⟨w, ws, -, -, -, rfl⟩ | ⟨err, r, -, -, -, -, rfl⟩ | ⟨-, rfl⟩
  · rfl
  · exact wordRule_params w _
  · exact hashRsp_params r.digest err _
  · exact State.resetBlock_params _

end Sys2Proof.Machine
end

section
/-! PROOF. 10_state.md R40: the block's invariant holds at reset and is kept by every step. The frame of each rule is
written as a structure update of the old invariant: the clauses a rule does not touch are taken over as they stand. -/

namespace Sys2Proof.Machine

/-! ## What the invariant says of one state -/

theorem BlockInv.half_eq_false {s : State} (hi : BlockInv s) (h : s.st ≠ 1#3) : s.half = false := by
  rw [← Bool.not_eq_true]
  exact fun hh => h (hi.halfPair hh).1

theorem BlockInv.abt_eq_false {s : State} (hi : BlockInv s) (h : s.st ≠ 0#3) : s.abt = false := by
  rw [← Bool.not_eq_true]
  exact fun ha => h (hi.aborted ha)

theorem BlockInv.ecode_eq_zero {s : State} (hi : BlockInv s) (h : s.st ≠ 4#3) : s.ecode = 0#2 := by
  by_contra he
  exact h (hi.errorIff.2 he)

theorem BlockInv.outlen_eq_zero {s : State} (hi : BlockInv s) (h : s.st ≠ 3#3) : s.outlen = 0#6 := by
  by_contra ho
  exact h (hi.doneIff.2 ho)

theorem BlockInv.hpend_eq_false {s : State} (hi : BlockInv s) (h0 : s.st ≠ 0#3) (h2 : s.st ≠ 2#3) :
    s.hpend = false := by
  rw [← Bool.not_eq_true]
  exact fun hp => (hi.pending hp).elim h0 h2

/-! ## Rules that leave the run's registers alone -/

/-- The host's queues and the three sticky flags stand in no clause of the invariant. -/
theorem BlockInv.of_bookkeeping {s : State} (hi : BlockInv s) (a b c : Bool) (cs : List Word) (ts : List Turn) :
    BlockInv { s with rej := a, seq := b, ill := c, cmds := cs, turns := ts } :=
  { hi with
    idle := fun h => { hi.idle h with }
    noResult := fun h => { hi.noResult h with } }

/-! ## A cleared run: reset, CANCEL and ACK -/

theorem runCleared_clearRun (s : State) : RunCleared s.clearRun := by
  constructor
  case audit | out => intro n hn; simp [hn]
  all_goals simp

theorem runCleared_resetBlock (s : State) : RunCleared s.resetBlock := by
  constructor
  case audit | out => intro n hn; simp [hn]
  all_goals simp

/-- IDLE with every register of ClearRun cleared: nothing but the outstanding request is left to agree on. -/
theorem blockInv_of_cleared {s : State} (h0 : s.st = 0#3) (hc : RunCleared s) (hr : s.hreq.isSome = s.hpend) :
    BlockInv s where
  legal := by simp [h0]
  idle _ := hc
  waits := by simp [h0]
  accTail := by simp [hc.acc]
  auditTail n hn _ := hc.audit n hn
  auditPairs := by simp [hc.pcnt]
  noHalf _ := hc.r1
  halfPair := by simp [hc.half]
  fivePerPair := by simp [hc.bgen, hc.pcnt]
  running := by simp [h0]
  doneIff := by simp [h0, hc.outlen]
  errorIff := by simp [h0, hc.ecode]
  aborted _ := h0
  codeLegal := by simp [hc.ecode]
  pending _ := .inl h0
  captured := hr
  request := by simp [h0]
  collecting := by simp [h0]
  collected := by simp [Collected, h0]
  badStart := by simp [hc.ecode]
  noResult _ := { hc with }

theorem BlockInv.clearRun {s : State} (hi : BlockInv s) : BlockInv s.clearRun :=
  blockInv_of_cleared rfl (runCleared_clearRun s) hi.captured

theorem BlockInv.cancelRule {s : State} (hi : BlockInv s) : BlockInv (cancelRule s) :=
  blockInv_of_cleared rfl { runCleared_clearRun s with } hi.captured

theorem blockInv_resetBlock (s : State) : BlockInv s.resetBlock :=
  blockInv_of_cleared rfl (runCleared_resetBlock s) rfl

/-! ## START in IDLE -/

theorem low3_of_valid {a : BitVec 4} (h : selValid a = true ∨ dieValid a = true) : (low3 a).toNat = a.toNat := by
  revert a
  decide

/-- R101: a valid selector begins a run, with every counter at 0 and at least one pair to collect. -/
theorem BlockInv.startValid {s : State} (hi : BlockInv s) (h0 : s.st = 0#3) (hp : s.hpend = false) {sel : BitVec 4}
    (hv : selValid sel = true) :
    BlockInv { s.clearSticky.setAbt false with sel := low3 sel, st := stCollect } := by
  have hc := hi.idle h0
  have hsel : 1 ≤ (low3 sel).toNat ∧ (low3 sel).toNat ≤ 5 := by
    rw [low3_of_valid (.inl hv)]
    exact (selValid_iff sel).1 hv
  have hpn : 0 < (strength (low3 sel)).pn := by
    have := strength_of_valid _ hsel
    omega
  exact
    { hi with
      legal := by simp
      idle := by simp
      waits := by simp
      halfPair := by simp [hc.half]
      running := fun _ => hsel
      doneIff := by simp [hc.outlen]
      errorIff := by simp [hc.ecode]
      aborted := by simp
      pending := by simp [hp]
      request := by simp
      collecting := fun _ => ⟨by simpa [hc.pcnt] using hpn, hc.rawlen⟩
      collected := by simp [Collected]
      badStart := by simp [hc.ecode]
      noResult := fun _ => { hc with } }

/-- R101, R164: a bad selector is the configuration error, with every counter at 0. -/
theorem BlockInv.startInvalid {s : State} (hi : BlockInv s) (h0 : s.st = 0#3) (hp : s.hpend = false) :
    BlockInv ((s.clearSticky.setAbt false).raiseFatal ecodeCfg) := by
  have hc := hi.idle h0
  exact
    { hi with
      legal := by simp
      idle := by simp
      waits := by simp
      halfPair := by simp [hc.half]
      running := by simp
      doneIff := by simp [hc.outlen]
      errorIff := by simp
      aborted := by simp
      codeLegal := by simp
      pending := by simp [hp]
      request := by simp
      collecting := by simp
      collected := by simp [Collected]
      badStart := fun _ => ⟨hc.sel, hc.pcnt, hc.rawlen⟩
      noResult := fun _ => { hc with } }

/-! ## ROLL in COLLECT -/

theorem BlockInv.latchDie {s : State} (hi : BlockInv s) (h1 : s.st = 1#3) {d : BitVec 4} (hv : dieValid d = true) :
    BlockInv (s.latchDie d) :=
  { hi with
    idle := by simp [h1]
    noHalf := by simp
    halfPair := fun _ => ⟨h1, by simpa [low3_of_valid (.inr hv)] using (dieValid_iff d).1 hv⟩
    noResult := fun h => { hi.noResult h with } }

/-- R40 (c), (d) and (f): the accumulator and the audit record agree with the run's counts. -/
structure RecordInv (s : State) : Prop where
  accTail     : ∀ i, i < 264 → s.bgen.toNat ≤ i → s.acc.getMsbD i = false
  auditTail   : ∀ n, n < 52 → s.pcnt.toNat ≤ n → s.audit[n]? = some 0
  auditPairs  : ∀ n, n < 52 → n < s.pcnt.toNat → (s.audit[n]?.map auditEntryOk) = some true
  fivePerPair : s.bgen.toNat = 5 * s.pcnt.toNat

section pair
variable {s t : State} {d : BitVec 4} (hi : BlockInv s) (h1 : s.st = 1#3) (hh : s.half = true)
  (hv : dieValid d = true) (ht : t = s.appendPair d (s.withPair d) (s.bgen.toNat + s.pairRoom))
include hi h1 hh hv ht

/-- The pair's 5 bits and its audit entry are appended where the counts say. -/
theorem recordInv_appendPair : RecordInv t := by
  obtain ⟨hb, hp, hr⟩ := collect_ranges hi h1
  obtain ⟨hpcnt, hbgen, -, -, htail, hnew, hold⟩ := appendPair_spec hb hp d t ht
  refine ⟨htail, fun n hn hle => ?_, fun n hn hlt => ?_, ?_⟩
  · rw [hold n (by omega), hi.auditTail n hn (by omega)]
  · rcases Nat.lt_succ_iff_lt_or_eq.1 (hpcnt ▸ hlt) with hlt | rfl
    · rw [hold n (by omega), hi.auditPairs n hn hlt]
    · rw [hnew, Option.map_some, (auditEntry_ok s.r1 d (hi.halfPair hh).2 hv).1]
  · have := hi.fivePerPair
    omega

/-- The pair is appended and the run goes on. -/
theorem BlockInv.appendPair (ho : t.collectionOver = false) : BlockInv t := by
  have hrec := recordInv_appendPair hi h1 hh hv ht
  obtain ⟨hb, hp, -⟩ := collect_ranges hi h1
  have hpcnt := (appendPair_spec hb hp d t ht).1
  have hne : t.pcnt.toNat ≠ (strength s.sel).pn := fun h => by
    simp [(collectionOver_iff hi h1 d t ht).1.2 h] at ho
  have hec := hi.ecode_eq_zero (s := s) (by simp [h1])
  have hcol := hi.collecting h1
  subst ht
  exact
    { hrec, hi with
      idle := by simp [h1]
      noHalf := by simp
      halfPair := by simp
      request := by simp [h1]
      collecting := fun _ => ⟨by simp only [State.appendPair_sel]; omega, hcol.2⟩
      collected := by simp [Collected, h1]
      badStart := by simp [hec]
      noResult := fun h => { hi.noResult h with } }

/-- The pair is appended and collection ends: the run holds its final counts, and the engine the message of R127. -/
theorem BlockInv.endCollect (ho : t.collectionOver = true) : BlockInv (t.endCollect (s.withPair d)) := by
  have hrec := recordInv_appendPair hi h1 hh hv ht
  obtain ⟨hb, hp, -⟩ := collect_ranges hi h1
  have hpn : t.pcnt.toNat = (strength s.sel).pn := (collectionOver_iff hi h1 d t ht).1.1 ho
  have hsel := hi.running (.inl h1)
  obtain ⟨hraw, hbits, -⟩ := endCollect_spec hb hp d t _ ht rfl
  have heb : (t.endCollect (s.withPair d)).rawlen.toNat = (strength s.sel).eb := by
    have hbgen := (appendPair_spec hb hp d t ht).2.1
    have hfive := hrec.fivePerPair
    have := (strength_of_valid s.sel hsel).2.1
    rw [hraw, ← hbgen, hfive, hpn, this]
  have hec := hi.ecode_eq_zero (s := s) (by simp [h1])
  have hout := hi.outlen_eq_zero (s := s) (by simp [h1])
  have habt := hi.abt_eq_false (s := s) (by simp [h1])
  have hres := hi.noResult (by simp [h1])
  subst ht
  exact
    { hrec, hi with
      legal := by simp
      idle := by simp
      waits := by simp
      noHalf := by simp
      halfPair := by simp
      running := fun _ => hsel
      doneIff := by simp [hout]
      errorIff := by simp [hec]
      aborted := by simp [habt]
      pending := by simp
      captured := by simp
      request := fun _ => by rw [hbits]; rfl
      collecting := by simp
      collected := fun _ => ⟨hsel.1, hsel.2, hpn, heb⟩
      badStart := by simp [hec]
      noResult := fun _ => { hres with } }

end pair

theorem BlockInv.completePair {s : State} (hi : BlockInv s) (h1 : s.st = 1#3) (hh : s.half = true) {d : BitVec 4}
    (hv : dieValid d = true) : BlockInv (s.completePair d) := by
  obtain ⟨t, ht, ⟨ho, e⟩ | ⟨ho, e⟩⟩ := completePair_cases d s
  · exact e ▸ hi.appendPair h1 hh hv ht ho
  · exact e ▸ hi.endCollect h1 hh hv ht ho

/-! ## The response -/

/-- R142: an answer the block does not wait for only takes the request back. -/
theorem BlockInv.answered {s : State} (hi : BlockInv s) (h2 : s.st ≠ 2#3) : BlockInv s.answered :=
  { hi with
    idle := fun h => { hi.idle h with }
    waits := fun h => absurd h h2
    pending := by simp
    captured := rfl
    request := fun h => absurd h h2
    noResult := fun h => { hi.noResult h with } }

/-- R165: a failed response is the hash error, and the run keeps its counts. -/
theorem BlockInv.hashFailure {s : State} (hi : BlockInv s) (h2 : s.st = 2#3) :
    BlockInv (s.answered.raiseFatal ecodeHash) := by
  have hhalf := hi.half_eq_false (s := s) (by simp [h2])
  have hout := hi.outlen_eq_zero (s := s) (by simp [h2])
  have habt := hi.abt_eq_false (s := s) (by simp [h2])
  have hres := hi.noResult (by simp [h2])
  exact
    { hi with
      legal := by simp
      idle := by simp
      waits := by simp
      halfPair := by simp [hhalf]
      running := by simp
      doneIff := by simp [hout]
      errorIff := by simp
      aborted := by simp [habt]
      codeLegal := by simp
      pending := by simp
      captured := rfl
      request := by simp
      collecting := by simp
      collected := fun _ => hi.collected (.inl h2)
      badStart := by simp
      noResult := fun _ => { hres with } }

/-- R145: the result's length is one of the five targets, so OUTLEN holds it and is not 0. -/
theorem ofNat_canon_ne_zero (l : Nat) : BitVec.ofNat 6 (canon l) ≠ 0#6 := by
  rw [canon_eq]
  split_ifs <;> decide

/-- R142: a successful response gives a result, and the run keeps its counts. -/
theorem BlockInv.finish {s : State} (hi : BlockInv s) (h2 : s.st = 2#3) (digest : BitVec 256) :
    BlockInv (s.answered.finish digest) := by
  have hhalf := hi.half_eq_false (s := s) (by simp [h2])
  have hec := hi.ecode_eq_zero (s := s) (by simp [h2])
  have habt := hi.abt_eq_false (s := s) (by simp [h2])
  exact
    { hi with
      legal := by simp [State.finish]
      idle := by simp [State.finish]
      waits := by simp [State.finish]
      halfPair := by simp [State.finish, hhalf]
      running := fun _ => hi.running (.inr (.inl h2))
      doneIff := by simp [State.finish, ofNat_canon_ne_zero]
      errorIff := by simp [State.finish, hec]
      aborted := by simp [State.finish, habt]
      pending := by simp [State.finish]
      captured := rfl
      request := by simp [State.finish]
      collecting := by simp [State.finish]
      collected := fun _ => hi.collected (.inl h2)
      badStart := by simp [State.finish, hec]
      noResult := by simp [State.finish] }

theorem BlockInv.hashRsp {s : State} (hi : BlockInv s) (digest : BitVec 256) (err : Bool) :
    BlockInv (hashRsp digest err s) := by
  rcases hashRsp_cases digest err s with ⟨h, e⟩ | ⟨h, -, e⟩ | ⟨h, -, e⟩ <;> rw [e]
  · exact hi.answered h
  · exact hi.hashFailure h
  · exact hi.finish h digest

/-! ## Every word, every step -/

/-- An accepted word keeps the invariant. -/
theorem BlockInv.wordRule {s : State} (hi : BlockInv s) (ha : Accepts s) (w : Word) : BlockInv (wordRule w s) := by
  have hp (h0 : s.st = 0#3) : s.hpend = false := by simpa [h0] using ha.2
  rcases wordRule_cases w s with e | e | e | ⟨-, e⟩ | ⟨h0, sel, -, hv, e⟩ | ⟨h0, sel, -, -, e⟩ | ⟨-, e⟩ | ⟨-, -, e⟩ |
    ⟨h1, -, d, -, hv, e⟩ | ⟨h1, hh, d, -, hv, e⟩ <;> rw [e]
  · exact hi
  · exact hi.of_bookkeeping s.rej true s.ill s.cmds s.turns
  · exact hi.of_bookkeeping s.rej s.seq true s.cmds s.turns
  · exact hi.of_bookkeeping true s.seq s.ill s.cmds s.turns
  · exact hi.startValid h0 (hp h0) hv
  · exact hi.startInvalid h0 (hp h0)
  · exact hi.cancelRule
  · exact hi.clearRun
  · exact hi.latchDie h1 hv
  · exact hi.completePair h1 hh hv

/-- Settles O42, along the four things a step can do: a passed turn and an accepted word start from the same registers,
the engine's response is `hashRsp`, and reset clears the block. -/
theorem stepKeepsInvariant : Obligations.StepKeepsInvariant := by
  intro s t hi h
  rcases step_cases h with ⟨-, rfl⟩ | ⟨w, ws, ha, -, -, rfl⟩ | ⟨err, r, -, -, -, -, rfl⟩ | ⟨-, rfl⟩
  · exact hi.of_bookkeeping s.rej s.seq s.ill s.cmds s.turns.tail
  · exact (hi.of_bookkeeping s.rej s.seq s.ill ws s.turns.tail).wordRule ha w
  · exact (hi.of_bookkeeping s.rej s.seq s.ill s.cmds s.turns.tail).hashRsp r.digest err
  · exact blockInv_resetBlock _

end Sys2Proof.Machine
end

section
/-! PROOF. 10_state.md R30, R31: what completing a pair leaves in the run's counts. -/

namespace Sys2Proof.Machine

theorem accepts_of_ne_idle {s : State} (hl : s.st.toNat ≤ 4) (h0 : s.st ≠ 0#3) : Accepts s := ⟨hl, fun h => h0 h.1⟩

theorem exec_of_accepts {s : State} (i : Instr) (ha : Accepts s) : exec i s = .next (instrRule i s.consume) := by
  rw [exec_eq_accept, accept_of_accepts _ ha]

theorem BlockInv.consume {s : State} (hi : BlockInv s) : BlockInv s.consume :=
  hi.of_bookkeeping s.rej s.seq s.ill s.cmds.tail s.turns

theorem rollRule_of_half {d : BitVec 4} {s : State} (h1 : s.st = 1#3) (hh : s.half = true) (hv : dieValid d = true) :
    rollRule d s = s.completePair d := by
  simp [rollRule, h1, hv, hh]

/-- From a state that meets the invariant a pair appends 5 bits, stays below the target, and ends the run exactly on the
pair count. -/
theorem completePair_counts {s : State} (hi : BlockInv s) (h1 : s.st = 1#3) (d : BitVec 4) :
    (s.completePair d).bgen.toNat = s.bgen.toNat + 5 ∧ (s.completePair d).bgen.toNat < (strength s.sel).tb ∧
    ((s.completePair d).st = 2#3 ↔ (s.completePair d).pcnt.toNat = (strength s.sel).pn) := by
  obtain ⟨hb, hp, hroom⟩ := collect_ranges hi h1
  obtain ⟨t, ht, hends⟩ := completePair_cases d s
  obtain ⟨hover, hlt, -⟩ := collectionOver_iff hi h1 d t ht
  have hbgen : t.bgen.toNat = s.bgen.toNat + 5 := hroom ▸ (appendPair_spec hb hp d t ht).2.1
  have hst : t.st = 1#3 := by rw [ht, State.appendPair_st, h1]
  rcases hends with ⟨ho, e⟩ | ⟨ho, e⟩ <;> rw [e]
  · have hne : t.pcnt.toNat ≠ (strength s.sel).pn := fun h => by simp [hover.2 h] at ho
    exact ⟨hbgen, hlt, by simp [hst, hne]⟩
  · exact ⟨hbgen, hlt, by simp [hover.1 ho]⟩

/-- Settles O20: the counts of `completePair_counts`, and for a run that ended the final counts that the invariant holds
of the next state. -/
theorem runEndsOnPairCount : Obligations.RunEndsOnPairCount := by
  intro d s t hi h1 hh hd1 hd6 h
  have hv : dieValid d = true := (dieValid_iff d).2 ⟨hd1, hd6⟩
  have hroll : instrRule (.roll d) s.consume = s.consume.completePair d := rollRule_of_half h1 hh hv
  rw [exec_of_accepts _ (accepts_of_ne_idle hi.legal (by simp [h1])), hroll] at h
  injection h with h
  subst h
  obtain ⟨hbgen, hlt, hend⟩ := completePair_counts hi.consume h1 d
  refine ⟨hbgen, hlt, hend, fun h2 => ?_⟩
  have hi' : BlockInv (s.consume.completePair d) := hi.consume.completePair h1 hh hv
  have hsel : (s.consume.completePair d).sel = s.sel := (completePair_keeps d s.consume).1
  obtain ⟨hlo, hhi, hpn, heb⟩ := hi'.collected (.inl h2)
  rw [hsel] at hlo hhi hpn heb
  obtain ⟨-, -, hmb, -⟩ := strength_of_valid s.sel ⟨hlo, hhi⟩
  exact ⟨by rw [hi'.fivePerPair, hpn, hmb], heb⟩

end Sys2Proof.Machine
end

section
/-! PROOF. 42_finalize.md R147 to R149: the digest reaches DIG0 and nothing else. -/

namespace Sys2Proof.Machine

/-- What a run that waits for its digest holds: as many raw bits as the strength's entropy bytes have. -/
theorem length_rawBits {s : State} (hi : BlockInv s) (h2 : s.st = 2#3) :
    s.rawBits.length = 8 * (strength s.sel).eb := by
  obtain ⟨hlo, hhi, -, heb⟩ := hi.collected (.inl h2)
  obtain ⟨-, -, -, -, -, -, heb32, -⟩ := strength_of_valid s.sel ⟨hlo, hhi⟩
  simp only [State.rawBits, List.length_take, length_bitsOf]
  omega

theorem length_checksum (digest : BitVec 256) {cb : Nat} (h : cb ≤ 8) : (checksum digest cb).length = cb := by
  simp only [checksum, List.length_take, length_bitsOf]
  omega

theorem length_candidate (raw ck : Bits) : (candidate raw ck).length = (raw.length + ck.length) / 8 := by
  simp [candidate]

/-- The candidate begins with the bytes of the raw bits. -/
theorem take_candidate {raw : Bits} {n : Nat} (h : raw.length = 8 * n) (ck : Bits) :
    (candidate raw ck).take n = bytes raw := by
  rw [candidate, take_bytes, trunc8, List.take_take, List.length_append, h, min_eq_left (by omega),
    ← h, List.take_left]

/-- The result has the strength's length: a candidate with its checksum byte, 33 bytes, is cut to 32. -/
theorem canon_candidate {sel : BitVec 3} (hsel : 1 ≤ sel.toNat ∧ sel.toNat ≤ 5) :
    canon ((8 * (strength sel).eb + (strength sel).cb) / 8) = (strength sel).eb := by
  revert sel
  decide +kernel

/-- A successful response, with the digest in DIG0 alone. -/
theorem finish_eq {s : State} (hi : BlockInv s) (h2 : s.st = 2#3) (digest : BitVec 256) :
    s.answered.finish digest = { s.answered with
      dig0 := digestByte digest 0
      candlen := BitVec.ofNat 6 ((8 * (strength s.sel).eb + (strength s.sel).cb) / 8)
      outlen := BitVec.ofNat 6 (strength s.sel).eb
      out := outBuffer (bytes s.rawBits)
      st := stDone } := by
  obtain ⟨hlo, hhi, -, -⟩ := hi.collected (.inl h2)
  obtain ⟨-, -, -, -, -, -, -, -, hcb, -, -⟩ := strength_of_valid s.sel ⟨hlo, hhi⟩
  have hraw := length_rawBits hi h2
  have hlen : (candidate s.rawBits (checksum digest (strength s.sel).cb)).length =
      (8 * (strength s.sel).eb + (strength s.sel).cb) / 8 := by
    rw [length_candidate, hraw, length_checksum digest hcb]
  have hfit : fit (candidate s.rawBits (checksum digest (strength s.sel).cb)) (strength s.sel).eb = bytes s.rawBits := by
    rw [fit, if_pos (by omega), take_candidate hraw]
  have hanswered : s.answered.rawBits = s.rawBits := rfl
  simp only [State.finish, State.answered_sel, hanswered, hlen, canon_candidate ⟨hlo, hhi⟩, hfit]

/-- Settles O32: by `finish_eq` the digest stands in no other field of the next state. -/
theorem digestReachesOnlyDig0 : Obligations.DigestReachesOnlyDig0 := by
  intro s d e hi h2
  have hrsp (digest : BitVec 256) : hashRsp digest false s = s.answered.finish digest := by simp [hashRsp, h2]
  rw [hrsp d, hrsp e, finish_eq hi h2 d, finish_eq hi h2 e]
  exact ⟨rfl, rfl⟩

end Sys2Proof.Machine
end

section
/-! PROOF. The state diagram (10_state.md R22, R23, R39): the edges a step can take, what EVT and SEL do along them, and
that only an illegal state stops the block. -/

namespace Sys2Proof.Machine

/-- The agent that moves next may end a run: reset, or a host whose next word is ACK or CANCEL. -/
def EndsRun (s : State) : Prop :=
  (∃ ts, s.turns = .rst :: ts) ∨
    ∃ ts w ws, s.turns = .host :: ts ∧ s.cmds = w :: ws ∧ (decode w = .instr .ack ∨ decode w = .instr .cancel)

/-- The edges of the state diagram, with the strength along them; `ends` says when a run may be left for IDLE. -/
inductive StateEdge (ends : Prop) (s t : State) : Prop where
  | stay (st : t.st = s.st) (sel : t.sel = s.sel)
  | start (idle : s.st = 0#3) (next : t.st = 1#3 ∨ t.st = 4#3)
  | endCollect (collect : s.st = 1#3) (next : t.st = 2#3) (sel : t.sel = s.sel)
  | respond (waiting : s.st = 2#3) (next : t.st = 3#3 ∨ t.st = 4#3) (sel : t.sel = s.sel)
  | leave (cause : ends) (idle : t.st = 0#3)

theorem StateEdge.of_eq {ends ends' : Prop} {s u t : State} (h : StateEdge ends u t) (hst : u.st = s.st)
    (hsel : u.sel = s.sel) (hends : ends → ends') : StateEdge ends' s t := by
  cases h with
  | stay st sel => exact .stay (st.trans hst) (sel.trans hsel)
  | start idle next => exact .start (hst ▸ idle) next
  | endCollect collect next sel => exact .endCollect (hst ▸ collect) next (sel.trans hsel)
  | respond waiting next sel => exact .respond (hst ▸ waiting) next (sel.trans hsel)
  | leave cause idle => exact .leave (hends cause) idle

theorem stateEdge_completePair {ends : Prop} {s : State} (h1 : s.st = 1#3) (d : BitVec 4) :
    StateEdge ends s (s.completePair d) := by
  obtain ⟨hsel, -, -, -, -, ⟨hst, -⟩ | ⟨hst, -⟩⟩ := completePair_keeps d s
  · exact .stay hst hsel
  · exact .endCollect h1 hst hsel

theorem stateEdge_hashRsp {ends : Prop} (digest : BitVec 256) (err : Bool) (s : State) :
    StateEdge ends s (hashRsp digest err s) := by
  obtain ⟨hsel, -, -, -, -, -, ⟨-, e⟩ | ⟨h2, -, h4, -⟩ | ⟨h2, -, h3, -⟩⟩ := hashRsp_keeps digest err s
  · exact .stay (by rw [e, State.answered_st]) hsel
  · exact .respond h2 (.inr h4) hsel
  · exact .respond h2 (.inl h3) hsel

/-- Among the words only ACK and CANCEL leave a run. -/
theorem stateEdge_wordRule (w : Word) (s : State) :
    StateEdge (decode w = .instr .ack ∨ decode w = .instr .cancel) s (wordRule w s) := by
  rcases wordRule_cases w s with e | e | e | ⟨-, e⟩ | ⟨h0, sel, -, -, e⟩ | ⟨h0, sel, -, -, e⟩ | ⟨hw, e⟩ | ⟨-, hw, e⟩ |
    ⟨-, -, d, -, -, e⟩ | ⟨h1, -, d, -, -, e⟩ <;> rw [e]
  · exact .stay rfl rfl
  · exact .stay rfl rfl
  · exact .stay rfl rfl
  · exact .stay rfl rfl
  · exact .start h0 (.inl rfl)
  · exact .start h0 (.inr rfl)
  · exact .leave (.inr hw) rfl
  · exact .leave (.inl hw) rfl
  · exact .stay rfl rfl
  · exact stateEdge_completePair h1 d

theorem step_edge {s t : State} (h : step s = .next t) : StateEdge (EndsRun s) s t := by
  rcases step_cases h with ⟨-, rfl⟩ | ⟨w, ws, -, hturns, hcmds, rfl⟩ | ⟨err, r, -, -, -, -, rfl⟩ | ⟨hturns, rfl⟩
  · exact .stay rfl rfl
  · exact (stateEdge_wordRule w _).of_eq rfl rfl fun hw => .inr ⟨_, w, ws, hturns, hcmds, hw⟩
  · exact (stateEdge_hashRsp r.digest err _).of_eq rfl rfl id
  · exact .leave (.inl ⟨_, hturns⟩) rfl

theorem evt_iff (s : State) : s.evt = true ↔ s.st = 3#3 ∨ s.st = 4#3 := by simp [State.evt]

theorem evt_eq_false_iff (s : State) : s.evt = false ↔ ¬(s.st = 3#3 ∨ s.st = 4#3) := by
  rw [← evt_iff, Bool.not_eq_true]

/-- Settles O36: of the edges, only those into DONE and ERROR raise EVT, and only the one that leaves a run lowers it. -/
theorem eventOutputEdges : Obligations.EventOutputEdges := by
  refine ⟨evt_iff, fun s t h hs ht => ?_, fun s t h hs ht => ?_⟩
  · rw [evt_eq_false_iff] at hs
    rw [evt_iff] at ht
    cases step_edge h with
    | stay st _ => exact absurd (st ▸ ht) hs
    | start idle next => exact .inr ⟨idle, by rcases next with e | e <;> simp_all⟩
    | endCollect _ next _ => simp [next] at ht
    | respond waiting next _ => exact .inl ⟨waiting, next⟩
    | leave _ idle => simp [idle] at ht
  · rw [evt_iff] at hs
    rw [evt_eq_false_iff] at ht
    cases step_edge h with
    | stay st _ => exact absurd (st ▸ hs) ht
    | start idle _ => simp [idle] at hs
    | endCollect collect _ _ => simp [collect] at hs
    | respond waiting _ _ => simp [waiting] at hs
    | leave cause idle => exact ⟨idle, cause⟩

/-- Settles O45: every edge keeps the strength but the one out of IDLE and the one into it. -/
theorem selectorFixedDuringRun : Obligations.SelectorFixedDuringRun := by
  intro s t h hs ht
  cases step_edge h with
  | stay _ sel => exact sel
  | start idle _ => exact absurd idle hs
  | endCollect _ _ sel => exact sel
  | respond _ _ sel => exact sel
  | leave _ idle => exact absurd idle ht

theorem inLegal_turns (s : State) (ts : List Turn) (n : State) : inLegal { s with turns := ts } n = inLegal s n := rfl

theorem step_host_no_word {s : State} {ts : List Turn} (h : s.turns = .host :: ts) (hc : s.cmds = []) :
    step s = inLegal s { s with turns := ts } := by
  rw [step_host h, ← inLegal_turns s ts]
  simp only [hostStep, hc]

/-- Every step but reset stands behind the check that `ST` is legal. -/
theorem step_eq_inLegal (s : State) : (∃ ts, s.turns = .rst :: ts) ∨ ∃ n, step s = inLegal s n := by
  cases hts : s.turns with
  | nil => exact .inr ⟨s, step_no_turn hts⟩
  | cons turn ts =>
    cases turn with
    | host =>
      right
      cases hc : s.cmds with
      | nil => exact ⟨_, step_host_no_word hts hc⟩
      | cons w ws => exact ⟨_, (step_host_word hts hc).trans (inLegal_turns s ts _)⟩
    | engine err => exact .inr ⟨_, (step_engine hts).trans (inLegal_turns s ts _)⟩
    | rst => exact .inl ⟨ts, rfl⟩

/-- Settles O48: reset is always taken, and every other step and every command is `inLegal`, which decides by `ST`. -/
theorem stopsOnlyInIllegalState : Obligations.StopsOnlyInIllegalState := by
  refine ⟨fun s hl => ?_, fun s hl => ⟨fun i => ?_, ?_⟩⟩
  · rcases step_eq_inLegal s with ⟨ts, hts⟩ | ⟨n, e⟩
    · exact ⟨_, step_rst hts⟩
    · exact ⟨n, by rw [e, inLegal_of_legal n hl]⟩
  · rw [exec_eq_accept, accept_of_illegal _ hl]
  · exact (step_eq_inLegal s).imp_right fun ⟨n, e⟩ => by rw [e, inLegal_of_illegal n hl]

end Sys2Proof.Machine
end

section
/-! PROOF. 20_memory.md R74: one request at a time. -/

namespace Sys2Proof.Machine

/-- Among the words only the ROLL that ends collection touches the request. -/
theorem wordRule_request (w : Word) (s : State) :
    ((wordRule w s).hpend = s.hpend ∧ (wordRule w s).hreq = s.hreq) ∨
      (s.st = 1#3 ∧ (wordRule w s).st = 2#3) := by
  rcases wordRule_cases w s with e | e | e | ⟨-, e⟩ | ⟨-, sel, -, -, e⟩ | ⟨-, sel, -, -, e⟩ | ⟨-, e⟩ | ⟨-, -, e⟩ |
    ⟨-, -, d, -, -, e⟩ | ⟨h1, -, d, -, -, e⟩ <;> rw [e]
  on_goal 10 =>
    obtain ⟨-, -, -, -, -, ⟨-, hp, hr⟩ | ⟨h2, -⟩⟩ := completePair_keeps d s
    · exact .inl ⟨hp, hr⟩
    · exact .inr ⟨h1, h2⟩
  all_goals exact .inl ⟨rfl, rfl⟩

/-- What a step does to the request: keeps it, issues one on the edge from COLLECT to HASH_WAIT, or, by the engine or
reset, takes it back. -/
theorem step_request {s t : State} (h : step s = .next t) :
    (t.hpend = s.hpend ∧ t.hreq = s.hreq) ∨ (s.st = 1#3 ∧ t.st = 2#3) ∨
      (t.hreq = none ∧ t.hpend = false ∧ ((∃ ts err, s.turns = .engine err :: ts) ∨ ∃ ts, s.turns = .rst :: ts)) := by
  rcases step_cases h with ⟨-, rfl⟩ | ⟨w, ws, -, -, -, rfl⟩ | ⟨err, r, -, hturns, -, -, rfl⟩ | ⟨hturns, rfl⟩
  · exact .inl ⟨rfl, rfl⟩
  · exact (wordRule_request w _).imp_right .inl
  · obtain ⟨-, -, -, -, hp, hr, -⟩ := hashRsp_keeps r.digest err { s with turns := s.turns.tail }
    exact .inr (.inr ⟨hr, hp, .inl ⟨_, err, hturns⟩⟩)
  · exact .inr (.inr ⟨rfl, rfl, .inr ⟨_, hturns⟩⟩)

/-- Settles O46: `step_request`, with the invariant's word that in COLLECT no request is outstanding. -/
theorem oneRequestOutstanding : Obligations.OneRequestOutstanding := by
  intro s t hi h
  have hcollect (h1 : s.st = 1#3) : s.hpend = false := hi.hpend_eq_false (by simp [h1]) (by simp [h1])
  rcases step_request h with ⟨hp, hr⟩ | ⟨h1, h2⟩ | ⟨hr, hp, hcause⟩
  · exact ⟨fun hs ht => by simp [hp, hs] at ht, fun hs => .inl ⟨hr, hp.trans hs⟩⟩
  · refine ⟨fun hs _ => ⟨?_, h1, h2⟩, fun hs => by simp [hcollect h1] at hs⟩
    simpa [hs] using hi.captured
  · exact ⟨fun _ ht => by simp [hp] at ht, fun _ => .inr ⟨hr, hp, hcause⟩⟩

end Sys2Proof.Machine
end

section
/-! PROOF. What no step reads (10_state.md R29, R38): a relation between states that every rule carries along is carried
along by every step. It is shown once, and used for the sticky flags and for the audit record. -/

namespace Sys2Proof.Machine

/-- Related states agree on what decides which rule applies, and every rule leaves related states related. -/
structure Unread (R : State → State → Prop) : Prop where
  st           : ∀ {s u}, R s u → u.st = s.st
  sel          : ∀ {s u}, R s u → u.sel = s.sel
  half         : ∀ {s u}, R s u → u.half = s.half
  r1           : ∀ {s u}, R s u → u.r1 = s.r1
  pcnt         : ∀ {s u}, R s u → u.pcnt = s.pcnt
  bgen         : ∀ {s u}, R s u → u.bgen = s.bgen
  acc          : ∀ {s u}, R s u → u.acc = s.acc
  hpend        : ∀ {s u}, R s u → u.hpend = s.hpend
  params       : ∀ {s u}, R s u → u.params = s.params
  hreq         : ∀ {s u}, R s u → u.hreq = s.hreq
  cmds         : ∀ {s u}, R s u → u.cmds = s.cmds
  turns        : ∀ {s u}, R s u → u.turns = s.turns
  setTurns     : ∀ {s u} (ts : List Turn), R s u → R { s with turns := ts } { u with turns := ts }
  consume      : ∀ {s u}, R s u → R s.consume u.consume
  flagRej      : ∀ {s u}, R s u → R s.flagRej u.flagRej
  flagSeq      : ∀ {s u}, R s u → R s.flagSeq u.flagSeq
  flagIll      : ∀ {s u}, R s u → R s.flagIll u.flagIll
  startRun     : ∀ {s u} (sel : BitVec 4), R s u →
    R (startRun sel (s.clearSticky.setAbt false)) (startRun sel (u.clearSticky.setAbt false))
  cancelRule   : ∀ {s u}, R s u → R (cancelRule s) (cancelRule u)
  clearRun     : ∀ {s u}, R s u → R s.clearRun u.clearRun
  latchDie     : ∀ {s u} (d : BitVec 4), R s u → R (s.latchDie d) (u.latchDie d)
  appendPair   : ∀ {s u} (d : BitVec 4) (a : Bits) (b : Nat), R s u → R (s.appendPair d a b) (u.appendPair d a b)
  endCollect   : ∀ {s u} (a : Bits), R s u → R (s.endCollect a) (u.endCollect a)
  answered     : ∀ {s u}, R s u → R s.answered u.answered
  raiseFatal   : ∀ {s u} (code : BitVec 2), R s u → R (s.raiseFatal code) (u.raiseFatal code)
  finish       : ∀ {s u} (digest : BitVec 256), R s u → R (s.finish digest) (u.finish digest)
  resetBlock   : ∀ {s u}, R s u → R s.resetBlock u.resetBlock

section
variable {R : State → State → Prop} (hR : Unread R) {s u : State} (h : R s u)
include hR h

theorem Unread.collectionOver : u.collectionOver = s.collectionOver := by
  simp only [State.collectionOver, hR.sel h, hR.pcnt h, hR.bgen h]

theorem Unread.completePair (d : BitVec 4) : R (s.completePair d) (u.completePair d) := by
  have hroom : u.pairRoom = s.pairRoom := by simp only [State.pairRoom, hR.sel h, hR.bgen h]
  have hpair : u.withPair d = s.withPair d := by
    simp only [State.withPair, State.accLive, hroom, hR.acc h, hR.bgen h, hR.params h, hR.r1 h]
  have happend := hR.appendPair d (s.withPair d) (s.bgen.toNat + s.pairRoom) h
  simp only [State.completePair, hpair, hroom, hR.bgen h, hR.collectionOver happend]
  split_ifs
  · exact hR.endCollect _ happend
  · exact happend

theorem Unread.instrRule (i : Instr) : R (instrRule i s) (instrRule i u) := by
  cases i with
  | nop => exact h
  | start sel =>
    simp only [Machine.instrRule, startRule, hR.st h]
    split_ifs
    · exact hR.startRun sel h
    · exact hR.flagSeq h
  | roll d =>
    simp only [Machine.instrRule, rollRule, hR.st h, hR.half h]
    split_ifs
    · exact hR.completePair h d
    · exact hR.latchDie d h
    · exact hR.flagRej h
    · exact hR.flagSeq h
  | cancel => exact hR.cancelRule h
  | ack =>
    simp only [Machine.instrRule, ackRule, hR.st h]
    split_ifs
    · exact hR.clearRun h
    · exact hR.flagSeq h

theorem Unread.wordRule (w : Word) : R (wordRule w s) (wordRule w u) := by
  unfold Machine.wordRule
  cases decode w with
  | instr i => exact hR.instrRule h i
  | illegal why => exact hR.flagIll h

theorem Unread.hashRsp (digest : BitVec 256) (err : Bool) : R (hashRsp digest err s) (hashRsp digest err u) := by
  simp only [Machine.hashRsp, hR.st h]
  split_ifs
  · exact hR.raiseFatal ecodeHash (hR.answered h)
  · exact hR.finish digest (hR.answered h)
  · exact hR.answered h

theorem Unread.inLegal {n m t : State} (hnm : R n m) (hs : inLegal s n = .next t) :
    ∃ v, inLegal u m = .next v ∧ R t v := by
  obtain ⟨hl, rfl⟩ := inLegal_next hs
  exact ⟨m, inLegal_of_legal m (by rwa [hR.st h]), hnm⟩

theorem Unread.accept (w : Word) {t : State} (hs : accept (Machine.wordRule w) s = .next t) :
    ∃ v, accept (Machine.wordRule w) u = .next v ∧ R t v := by
  have hheld : u.held = s.held := by simp only [State.held, hR.st h, hR.hpend h]
  refine hR.inLegal h ?_ hs
  rw [hheld]
  split_ifs
  · exact h
  · exact hR.wordRule (hR.consume h) w

theorem Unread.engineStep (err : Bool) {t : State} (hs : engineStep err s = .next t) :
    ∃ v, engineStep err u = .next v ∧ R t v := by
  have hready : u.engineReady err = s.engineReady err := by
    simp only [State.engineReady, hR.hpend h, hR.hreq h, hR.params h]
  refine hR.inLegal h ?_ hs
  rw [hR.hreq h, hready]
  cases s.hreq with
  | none => exact h
  | some r =>
    dsimp only
    split_ifs
    · exact hR.hashRsp h r.digest err
    · exact h

/-- From related states every step leads to related states. -/
theorem Unread.step {t : State} (hs : step s = .next t) : ∃ v, step u = .next v ∧ R t v := by
  have hturns := hR.turns h
  have hcmds := hR.cmds h
  cases hts : s.turns with
  | nil =>
    rw [step_no_turn hts] at hs
    rw [step_no_turn (hturns.trans hts)]
    exact hR.inLegal h h hs
  | cons turn ts =>
    have h' := hR.setTurns ts h
    cases turn with
    | host =>
      cases hc : s.cmds with
      | nil =>
        rw [step_host_no_word hts hc] at hs
        rw [step_host_no_word (hturns.trans hts) (hcmds.trans hc)]
        exact hR.inLegal h h' hs
      | cons w ws =>
        rw [step_host_word hts hc] at hs
        rw [step_host_word (hturns.trans hts) (hcmds.trans hc)]
        exact hR.accept h' w hs
    | engine err =>
      rw [step_engine hts] at hs
      rw [step_engine (hturns.trans hts)]
      exact hR.engineStep h' err hs
    | rst =>
      rw [step_rst hts] at hs
      injection hs with hs
      exact ⟨_, step_rst (hturns.trans hts), hs ▸ hR.resetBlock h'⟩

end

/-- `u` is `s` but for REJ, SEQ and ILL. -/
def AgreeButSticky (s u : State) : Prop := ∃ a b c, u = { s with rej := a, seq := b, ill := c }

/-- `u` is `s` but for AUDIT. -/
def AgreeButAudit (s u : State) : Prop := ∃ v, u = { s with audit := v }

theorem unread_agreeButSticky : Unread AgreeButSticky := by
  constructor
  case st | sel | half | r1 | pcnt | bgen | acc | hpend | params | hreq | cmds | turns => rintro s _ ⟨a, b, c, rfl⟩; rfl
  case startRun =>
    rintro s _ sel ⟨a, b, c, rfl⟩
    unfold startRun
    split_ifs <;> exact ⟨_, _, _, rfl⟩
  case appendPair => rintro s _ d x n ⟨a, b, c, rfl⟩; exact ⟨_, _, _, rfl⟩
  case setTurns | latchDie | endCollect | raiseFatal | finish => rintro s _ x ⟨a, b, c, rfl⟩; exact ⟨_, _, _, rfl⟩
  all_goals rintro s _ ⟨a, b, c, rfl⟩; exact ⟨_, _, _, rfl⟩

theorem unread_agreeButAudit : Unread AgreeButAudit := by
  constructor
  case st | sel | half | r1 | pcnt | bgen | acc | hpend | params | hreq | cmds | turns => rintro s _ ⟨v, rfl⟩; rfl
  case startRun =>
    rintro s _ sel ⟨v, rfl⟩
    unfold startRun
    split_ifs <;> exact ⟨_, rfl⟩
  case appendPair => rintro s _ d x n ⟨v, rfl⟩; exact ⟨_, rfl⟩
  case setTurns | latchDie | endCollect | raiseFatal | finish => rintro s _ x ⟨v, rfl⟩; exact ⟨_, rfl⟩
  all_goals rintro s _ ⟨v, rfl⟩; exact ⟨_, rfl⟩

/-- Settles O38, by `Unread.step` for the sticky flags. -/
theorem stickyFlagsDecideNothing : Obligations.StickyFlagsDecideNothing := by
  intro s t a b c h
  obtain ⟨_, hv, a', b', c', rfl⟩ := unread_agreeButSticky.step ⟨a, b, c, rfl⟩ h
  exact ⟨a', b', c', hv⟩

/-- Settles O40, by `Unread.step` for the audit record. -/
theorem auditIsNeverRead : Obligations.AuditIsNeverRead := by
  intro s t v h
  obtain ⟨_, hv, v', rfl⟩ := unread_agreeButAudit.step ⟨v, rfl⟩ h
  exact ⟨v', hv⟩

end Sys2Proof.Machine
end

section
/-! PROOF. 10_state.md R38 and 60_exceptions.md R163: what sets and what clears each of the flags. -/

namespace Sys2Proof.Machine

/-- The four flags. -/
structure Flags where
  rej : Bool
  seq : Bool
  ill : Bool
  abt : Bool

def State.flags (s : State) : Flags := ⟨s.rej, s.seq, s.ill, s.abt⟩

theorem flags_completePair (d : BitVec 4) (s : State) : (s.completePair d).flags = s.flags := by
  obtain ⟨t, rfl, ⟨-, e⟩ | ⟨-, e⟩⟩ := completePair_cases d s <;> rw [e] <;> rfl

theorem flags_hashRsp (digest : BitVec 256) (err : Bool) (s : State) : (hashRsp digest err s).flags = s.flags := by
  rcases hashRsp_cases digest err s with ⟨-, e⟩ | ⟨-, -, e⟩ | ⟨-, -, e⟩ <;> rw [e] <;> rfl

/-- How a word that is accepted in `st`, and read as `x`, takes the flags from `f` to `g` (R38). -/
inductive FlagEffect (x : Decoded) (st : BitVec 3) (f g : Flags) : Prop where
  | keep (after : g = f)
  | rej (d : BitVec 4) (word : x = .instr (.roll d)) (collect : st = 1#3) (bad : dieValid d = false)
      (after : g = { f with rej := true })
  | seq (place : (st ≠ 0#3 ∧ ∃ sel, x = .instr (.start sel)) ∨ (st ≠ 1#3 ∧ ∃ d, x = .instr (.roll d)) ∨
      (st ≠ 3#3 ∧ st ≠ 4#3 ∧ x = .instr .ack)) (after : g = { f with seq := true })
  | ill (why : Illegal) (word : x = .illegal why) (after : g = { f with ill := true })
  | start (sel : BitVec 4) (word : x = .instr (.start sel)) (idle : st = 0#3) (after : g = ⟨false, false, false, false⟩)
  | cancel (word : x = .instr .cancel) (after : g = ⟨false, false, false, true⟩)

theorem flagEffect_instrRule (i : Instr) (s : State) :
    FlagEffect (.instr i) s.st s.flags (instrRule i s).flags := by
  cases i with
  | nop => exact .keep rfl
  | start sel =>
    rcases startRule_cases sel s with ⟨h, e⟩ | ⟨h, -, e⟩ | ⟨h, -, e⟩ <;> rw [instrRule, e]
    · exact .seq (.inl ⟨h, sel, rfl⟩) rfl
    · exact .start sel rfl h rfl
    · exact .start sel rfl h rfl
  | roll d =>
    rcases rollRule_cases d s with ⟨h, e⟩ | ⟨h, hv, e⟩ | ⟨-, -, -, e⟩ | ⟨-, -, -, e⟩ <;> rw [instrRule, e]
    · exact .seq (.inr (.inl ⟨h, d, rfl⟩)) rfl
    · exact .rej d rfl h hv rfl
    · exact .keep rfl
    · exact .keep (flags_completePair d s)
  | cancel => exact .cancel rfl rfl
  | ack =>
    rcases ackRule_cases s with ⟨-, e⟩ | ⟨h, e⟩ <;> rw [instrRule, e]
    · exact .keep rfl
    · exact .seq (.inr (.inr ⟨fun h3 => h (.inl h3), fun h4 => h (.inr h4), rfl⟩)) rfl

theorem flagEffect_wordRule (w : Word) (s : State) :
    FlagEffect (decode w) s.st s.flags (wordRule w s).flags := by
  unfold wordRule
  cases decode w with
  | instr i => exact flagEffect_instrRule i s
  | illegal why => exact .ill why rfl rfl

/-- What a step does to the flags: nothing, or it is reset, or the host's word decides. -/
theorem step_flags {s t : State} (h : step s = .next t) :
    t.flags = s.flags ∨ ((∃ ts, s.turns = .rst :: ts) ∧ t.flags = ⟨false, false, false, false⟩) ∨
      ∃ ts w ws, Accepts s ∧ s.turns = .host :: ts ∧ s.cmds = w :: ws ∧
        FlagEffect (decode w) s.st s.flags t.flags := by
  rcases step_cases h with ⟨-, rfl⟩ | ⟨w, ws, ha, hturns, hcmds, rfl⟩ | ⟨err, r, -, -, -, -, rfl⟩ | ⟨hturns, rfl⟩
  · exact .inl rfl
  · exact .inr (.inr ⟨_, w, ws, ha, hturns, hcmds, flagEffect_wordRule w { s with turns := s.turns.tail, cmds := ws }⟩)
  · exact .inl (flags_hashRsp r.digest err _)
  · exact .inr (.inl ⟨⟨_, hturns⟩, rfl⟩)

theorem flags_eq_iff (t : State) (f : Flags) :
    t.flags = f ↔ t.rej = f.rej ∧ t.seq = f.seq ∧ t.ill = f.ill ∧ t.abt = f.abt := by
  cases f
  simp [State.flags]

/-- Settles O39: each clause names the one effect of `FlagEffect`, or the reset of `step_flags`, that changes its flag. -/
theorem flagsChangeOnlyAsListed : Obligations.FlagsChangeOnlyAsListed := by
  intro s t h isReset takes startAccepted
  rcases step_flags h with e | ⟨hreset, e⟩ | ⟨ts, w, ws, ha, hturns, hcmds, heff⟩
  · obtain ⟨hrej, hseq, hill, habt⟩ := (flags_eq_iff t _).1 e
    simp +contextual [hrej, hseq, hill, habt, State.flags]
  · obtain ⟨hrej, hseq, hill, habt⟩ := (flags_eq_iff t _).1 e
    have hreset : isReset := hreset
    simp [hreset, hrej, hseq, hill, habt]
  · have htakes {i : Instr} (hw : decode w = .instr i) : takes i := ⟨ts, w, ws, hturns, hcmds, hw⟩
    cases heff with
    | keep after =>
      obtain ⟨hrej, hseq, hill, habt⟩ := (flags_eq_iff t _).1 after
      simp +contextual [hrej, hseq, hill, habt, State.flags]
    | rej d word collect bad after =>
      obtain ⟨hrej, hseq, hill, habt⟩ := (flags_eq_iff t _).1 after
      have hbad : ¬(1 ≤ d.toNat ∧ d.toNat ≤ 6) := by simp [← dieValid_iff, bad]
      refine ⟨?_, ?_, ?_, ?_, fun _ _ => ⟨collect, d, htakes word, hbad⟩, ?_, ?_, ?_⟩ <;>
        simp +contextual [hrej, hseq, hill, habt, State.flags]
    | seq place after =>
      obtain ⟨hrej, hseq, hill, habt⟩ := (flags_eq_iff t _).1 after
      have hplace : (s.st ≠ 0#3 ∧ ∃ sel, takes (.start sel)) ∨ (s.st ≠ 1#3 ∧ ∃ d, takes (.roll d)) ∨
          (s.st ≠ 3#3 ∧ s.st ≠ 4#3 ∧ takes .ack) := by
        rcases place with ⟨h0, sel, word⟩ | ⟨h1, d, word⟩ | ⟨h3, h4, word⟩
        · exact .inl ⟨h0, sel, htakes word⟩
        · exact .inr (.inl ⟨h1, d, htakes word⟩)
        · exact .inr (.inr ⟨h3, h4, htakes word⟩)
      refine ⟨?_, ?_, ?_, ?_, ?_, fun _ _ => hplace, ?_, ?_⟩ <;>
        simp +contextual [hrej, hseq, hill, habt, State.flags]
    | ill why word after =>
      obtain ⟨hrej, hseq, hill, habt⟩ := (flags_eq_iff t _).1 after
      refine ⟨?_, ?_, ?_, ?_, ?_, ?_, fun _ _ => ⟨ts, w, ws, why, hturns, hcmds, word⟩, ?_⟩ <;>
        simp +contextual [hrej, hseq, hill, habt, State.flags]
    | start sel word idle after =>
      obtain ⟨hrej, hseq, hill, habt⟩ := (flags_eq_iff t _).1 after
      have hstart : startAccepted := ⟨idle, by simpa [idle] using ha.2, sel, htakes word⟩
      simp [hstart, hrej, hseq, hill, habt]
    | cancel word after =>
      obtain ⟨hrej, hseq, hill, habt⟩ := (flags_eq_iff t _).1 after
      simp [htakes word, hrej, hseq, hill, habt]

end Sys2Proof.Machine
end

section
/-! PROOF. The read port and reset (20_memory.md R55 to R62, 60_exceptions.md R176, 70_reset_and_hazards.md R180 to R182):
a read shows registers alone, and the reads together show every register. -/

namespace Sys2Proof.Machine

/-- A read depends on the registers of the block alone (R55). -/
theorem regRead_congr {s t : State} (h : SameRegisters s t) (a : BitVec 8) : regRead a s = regRead a t := by
  simp only [regRead, State.infoBytes, State.statusByte, State.errByte, State.evt, State.accByte, h.st, h.sel, h.half,
    h.r1, h.pcnt, h.bgen, h.acc, h.audit, h.hpend, h.rawlen, h.dig0, h.candlen, h.outlen, h.out, h.ecode, h.rej, h.seq,
    h.ill, h.abt]

theorem setWidth_byte_injective {n : Nat} (hn : n ≤ 8) {x y : BitVec n} (h : x.setWidth 8 = y.setWidth 8) : x = y := by
  simpa [BitVec.setWidth_setWidth_of_le, hn] using congrArg (BitVec.setWidth n) h

/-- A register of 9 bits is shown by its low byte and its top bit (R56). -/
theorem eq_of_low_high {x y : BitVec 9} (hl : x.extractLsb' 0 8 = y.extractLsb' 0 8)
    (hh : (x.extractLsb' 8 1).setWidth 8 = (y.extractLsb' 8 1).setWidth 8) : x = y := by
  have hh := setWidth_byte_injective (by decide) hh
  have hsplit (z : BitVec 9) : z.extractLsb' 8 1 ++ z.extractLsb' 0 8 = z :=
    BitVec.extractLsb'_append_extractLsb' (w := 1) (len := 8)
  rw [← hsplit x, ← hsplit y, hl, hh]

/-- What STATUS shows (R57). -/
theorem statusByte_shows (s : State) :
    s.statusByte.extractLsb' 0 3 = s.st ∧ s.statusByte.getLsbD 3 = s.half ∧ s.statusByte.getLsbD 4 = s.hpend ∧
      s.statusByte.getLsbD 5 = s.abt := by
  unfold State.statusByte
  generalize s.evt = e, s.abt = a, s.hpend = p, s.half = h, s.st = st
  revert e a p h st
  decide

/-- What ERR shows (R58). -/
theorem errByte_shows (s : State) :
    s.errByte.extractLsb' 0 2 = s.ecode ∧ s.errByte.getLsbD 2 = s.rej ∧ s.errByte.getLsbD 3 = s.seq ∧
      s.errByte.getLsbD 4 = s.ill := by
  unfold State.errByte
  generalize s.ill = i, s.seq = q, s.rej = r, s.ecode = e
  revert i q r e
  decide

/-- The accumulator is shown by its 33 bytes (R62). -/
theorem acc_eq_of_accByte {s t : State} (h : ∀ k, k ≤ 32 → s.accByte k = t.accByte k) : s.acc = t.acc := by
  apply BitVec.eq_of_getMsbD_eq
  intro i hi
  have hbyte := h (i / 8) (by omega)
  have hbit := congrArg (·.getMsbD (i % 8)) hbyte
  simpa only [getMsbD_accByte _ _ _ (show i / 8 ≤ 32 by omega) (Nat.mod_lt i (by decide : 0 < 8)), Nat.div_add_mod]
    using hbit

/-- Settles O58: each register is read back from the window of the address map that shows it. -/
theorem readPortShowsEveryRegister : Obligations.ReadPortShowsEveryRegister := by
  intro s t h
  have hstatus : s.statusByte = t.statusByte := h 0x00
  have herr : s.errByte = t.errByte := h 0x01
  obtain ⟨hst, hhalf, hhpend, habt⟩ := statusByte_shows s
  obtain ⟨hst', hhalf', hhpend', habt'⟩ := statusByte_shows t
  obtain ⟨hecode, hrej, hseq, hill⟩ := errByte_shows s
  obtain ⟨hecode', hrej', hseq', hill'⟩ := errByte_shows t
  exact
    { st := by rw [← hst, hstatus, hst']
      half := by rw [← hhalf, hstatus, hhalf']
      hpend := by rw [← hhpend, hstatus, hhpend']
      abt := by rw [← habt, hstatus, habt']
      ecode := by rw [← hecode, herr, hecode']
      rej := by rw [← hrej, herr, hrej']
      seq := by rw [← hseq, herr, hseq']
      ill := by rw [← hill, herr, hill']
      sel := setWidth_byte_injective (by decide) (h 0x02)
      pcnt := setWidth_byte_injective (by decide) (h 0x06)
      bgen := eq_of_low_high (h 0x07) (h 0x08)
      r1 := setWidth_byte_injective (by decide) (h 0x0B)
      rawlen := setWidth_byte_injective (by decide) (h 0x0C)
      candlen := setWidth_byte_injective (by decide) (h 0x0D)
      outlen := setWidth_byte_injective (by decide) (h 0x0E)
      dig0 := h 0x0F
      out := Vector.ext fun n hn => by rw [← regRead_out s n hn, h, regRead_out t n hn]
      audit := Vector.ext fun n hn => by rw [← regRead_audit s n hn, h, regRead_audit t n hn]
      acc := acc_eq_of_accByte fun k hk => by rw [← regRead_acc s k hk, h, regRead_acc t k hk] }

theorem regRead_reset (a : BitVec 8) : regRead a State.reset = 0x00 := by
  revert a
  decide +kernel

theorem sameRegisters_resetBlock (s : State) : SameRegisters s.resetBlock State.reset := by
  constructor <;> rfl

/-- Settles O51: the step is `resetBlock`, whose registers, and so its reads, are those of `State.reset`. -/
theorem resetStep_clearsRegisters : Obligations.ResetStep := by
  intro s ts hturns
  exact ⟨_, step_rst hturns, sameRegisters_resetBlock _, rfl, rfl, rfl, rfl, rfl, rfl, fun a =>
    (regRead_congr (sameRegisters_resetBlock _) a).trans (regRead_reset a)⟩

/-- Settles O55: the windows are `regRead_out` and `regRead_audit`; what the invariant says of OUT and of the entries past
PCNT is read through them. -/
theorem outAndAuditWindows : Obligations.OutAndAuditWindows := by
  have hout (s : State) (n : Nat) (hn : n < 32) : some (regRead (BitVec.ofNat 8 (0x20 + n)) s) = s.out[n]? := by
    rw [regRead_out s n hn, Vector.getElem?_eq_getElem hn]
  have haudit (s : State) (n : Nat) (hn : n < 52) : some (regRead (BitVec.ofNat 8 (0x40 + n)) s) = s.audit[n]? := by
    rw [regRead_audit s n hn, Vector.getElem?_eq_getElem hn]
  refine ⟨hout, fun s n hi h3 hn => ?_, haudit, fun s n hi hp hn => ?_⟩
  · exact Option.some.inj ((hout s n hn).trans ((hi.noResult h3).out n hn))
  · exact Option.some.inj ((haudit s n hn).trans (hi.auditTail n hn hp))

end Sys2Proof.Machine
end

section
/-! PROOF. The strength table (10_state.md R24), the invariants at reset (R40, R180) and CANCEL (40_control.md R102). -/

namespace Sys2Proof.Machine

/-- Settles O19: the table has six rows, and the kernel compares each with its formulas. -/
theorem strengthTableFormulas : Obligations.StrengthTableFormulas := by
  refine ⟨rfl, ?_⟩
  decide +kernel

theorem blockInv_reset : BlockInv State.reset := blockInv_resetBlock State.reset

/-- At reset the accumulator is empty, and so is the symbol stream of no pairs. -/
theorem streamInv_reset : StreamInv State.reset := by
  simp [StreamInv, State.accLive, State.stream, State.reset]

/-- Settles O41: reset is `resetBlock` of itself; it holds no pair, and it is not DONE. -/
theorem invariantsAtReset : Obligations.InvariantsAtReset :=
  ⟨blockInv_reset, streamInv_reset, fun h => absurd h (by decide)⟩

theorem statusByte_cancelRule (s : State) : (cancelRule s).statusByte = if s.hpend then 0x30 else 0x20 := by
  have hshows : (cancelRule s).statusByte = 0#1 ++ 0#1 ++ 1#1 ++ BitVec.ofBool s.hpend ++ 0#1 ++ 0#3 := rfl
  rw [hshows]
  cases s.hpend <;> decide

/-- CANCEL once accepted, with every register written out (R37, R102). -/
theorem cancelRule_eq (s : State) :
    cancelRule s = { s with
      st := 0, sel := 0, half := false, r1 := 0, pcnt := 0, bgen := 0, acc := 0, audit := Vector.replicate 52 0
      rawlen := 0, dig0 := 0, candlen := 0, outlen := 0, out := Vector.replicate 32 0, ecode := 0
      rej := false, seq := false, ill := false, abt := true } := by
  simp [cancelRule, State.clearRun, State.clearSticky, State.setAbt]

/-- Settles O9: an accepted CANCEL is `cancelRule`, and it leaves IDLE, where a response is discarded. -/
theorem cancelAbortsRun : Obligations.CancelAbortsRun := by
  refine ⟨by decide, fun s h0 hp => ?_, fun s ha => ?_⟩
  · rw [exec_eq_accept, accept_of_held _ h0 hp]
  · refine ⟨cancelRule s.consume, exec_of_accepts .cancel ha, cancelRule_eq s.consume,
      statusByte_cancelRule s.consume, rfl, fun digest err => ?_⟩
    exact if_neg (show (0#3 : BitVec 3) ≠ 2#3 by decide)

end Sys2Proof.Machine
end

section
/-! PROOF. The hash request (20_memory.md R53, R64, 42_finalize.md R140, R141): its message lanes hold the message and its
block lanes the padded message, both read back byte by byte. -/

namespace Sys2Proof.Machine

/-- Message byte `i` stands on the lane `[263-8i : 256-8i]` (R53). -/
theorem hreqMsg_lane {m : List Byte} (h : m.length ≤ 33) {i : Nat} (hi : i < m.length) :
    (hreqMsg m).extractLsb' (256 - 8 * i) 8 = m[i] := by
  have hlane : (hreqMsg m).extractLsb' (256 - 8 * i) 8 =
      ofBits 8 (((bits m ++ zeros (264 - 8 * m.length)).drop (8 * i)).take 8) := by
    rw [← bitsOf_hreqMsg m h]
    exact extractLsb'_eq_byte (hreqMsg m) i (by omega)
  have hbytes : bytes (bits m ++ zeros (264 - 8 * m.length)) = m ++ bytes (zeros (264 - 8 * m.length)) := by
    rw [bytes_append _ _ _ (length_bits m), bytes_bits]
  rw [hlane, ← getElem_bytes _ i (by simp; omega)]
  simp only [hbytes, List.getElem_append_left hi]

/-- Past the message the lanes are 0 (R53). -/
theorem hreqMsg_tail {m : List Byte} (h : m.length ≤ 33) {i : Nat} (hm : 8 * m.length ≤ i) (hi : i < 264) :
    (hreqMsg m).getMsbD i = false := by
  rw [← getElem_bitsOf _ i (by simpa using hi)]
  simp only [bitsOf_hreqMsg m h]
  rw [List.getElem_append_right (by simpa using hm)]
  simp [zeros]

theorem hashReq_len_toNat (hif : Config.HashIf) {m : List Byte} (h : m.length ≤ 33) :
    (hashReq hif m).len.toNat = m.length := Nat.mod_eq_of_lt (show m.length < 2 ^ 6 by omega)

/-- The engine reads the message back from the request's lanes (R53, R64). -/
theorem message_hashReq (hif : Config.HashIf) {m : List Byte} (h : m.length ≤ 33) : (hashReq hif m).message = m := by
  have hlen := hashReq_len_toNat hif h
  apply List.ext_getElem
  · simp [HashReq.message, hlen]
  · intro i _ hi
    simp only [HashReq.message, List.getElem_map, List.getElem_range]
    exact hreqMsg_lane h hi

theorem digest_hashReq (hif : Config.HashIf) {m : List Byte} (h : m.length ≤ 33) :
    (hashReq hif m).digest = Config.sha256 m := by
  rw [HashReq.digest, message_hashReq hif h]

/-- Settles O23: `hreqMsg_lane` and `hreqMsg_tail` give the lanes, and the engine reads the message back from them. -/
theorem requestCarriesMessage : Obligations.RequestCarriesMessage := by
  intro hif m h
  refine ⟨hashReq_len_toNat hif h, fun i hi => ?_, fun i hm hi => hreqMsg_tail h hm hi, rfl, message_hashReq hif h,
    digest_hashReq hif h⟩
  rw [List.getElem?_eq_getElem hi]
  exact congrArg some (hreqMsg_lane h hi)

theorem numeral_eq_bitsOf (w c : Nat) : numeral w c = bitsOf (BitVec.ofNat w c) := by
  apply List.ext_getElem
  · simp
  · intro i h _
    have hi : i < w := by simpa using h
    have hlow : w - 1 - i < w := by omega
    rw [getElem_bitsOf, BitVec.getMsbD, BitVec.getLsbD_ofNat]
    simp [numeral, hi, hlow]

/-- A numeral is the numeral of its high digits followed by its low digits. -/
theorem numeral_add (a b c : Nat) : numeral (a + b) c = numeral a (c / 2 ^ b) ++ numeral b c := by
  apply List.ext_getElem
  · simp
  · intro i h _
    have hi : i < a + b := by simpa using h
    by_cases hia : i < a
    · rw [List.getElem_append_left (by simpa using hia)]
      simp only [numeral, List.getElem_map, List.getElem_range, Nat.testBit_div_two_pow]
      congr 1
      omega
    · rw [List.getElem_append_right (by simpa using hia)]
      simp only [numeral, List.getElem_map, List.getElem_range, List.length_map, List.length_range]
      congr 1
      omega

@[simp] theorem numeral_zero (w : Nat) : numeral w 0 = zeros w := by
  simp [numeral, zeros, List.map_const']

theorem zeros_append_zeros (a b : Nat) : zeros a ++ zeros b = zeros (a + b) := List.replicate_append_replicate

theorem bits_append (d e : List Byte) : bits (d ++ e) = bits d ++ bits e := List.flatMap_append

@[simp] theorem bits_replicate_zero (n : Nat) : bits (List.replicate n 0) = zeros (8 * n) := by
  have hbyte : bitsOf (0 : Byte) = zeros 8 := by decide
  induction n with
  | zero => rfl
  | succ n ih =>
    rw [List.replicate_succ, bits_cons, hbyte, ih, zeros_append_zeros]
    congr 1
    omega

/-- The length field of the padded block is six zero bytes and the length's two low bytes (R141). -/
theorem bin64_eq_bits {v : Nat} (h : v < 65536) :
    bin64 v = bits (List.replicate 6 0 ++ [BitVec.ofNat 8 (v / 256), BitVec.ofNat 8 (v % 256)]) := by
  have hlow : BitVec.ofNat 8 (v % 256) = BitVec.ofNat 8 v := by
    apply BitVec.eq_of_toNat_eq
    simp
  have hhigh : v / 2 ^ 16 = 0 := Nat.div_eq_of_lt h
  calc bin64 v = numeral 48 (v / 2 ^ 16) ++ (numeral 8 (v / 2 ^ 8) ++ numeral 8 v) := by
        rw [bin64, numeral_add 48 16, numeral_add 8 8]
    _ = zeros 48 ++ (numeral 8 (v / 2 ^ 8) ++ numeral 8 v) := by
        rw [hhigh, numeral_zero]
    _ = _ := by
        rw [numeral_eq_bitsOf, numeral_eq_bitsOf, bits_append, bits_replicate_zero, hlow]
        simp

/-- The padded block as bytes: the byte 0x80 is the single 1 bit with the first seven zeros after it (R141). -/
theorem paddedBlock_eq_bits {m : List Byte} (h : m.length ≤ 33) :
    paddedBlock m = bits (m ++ [0x80] ++ List.replicate (61 - m.length) 0 ++
      [BitVec.ofNat 8 (8 * m.length / 256), BitVec.ofNat 8 (8 * m.length % 256)]) := by
  have hmark : bits [0x80] = [true] ++ zeros 7 := by decide
  have hzeros : zeros (447 - 8 * m.length) = zeros 7 ++ bits (List.replicate (55 - m.length) 0) := by
    rw [bits_replicate_zero, zeros_append_zeros]
    congr 1
    omega
  have hpad : List.replicate (61 - m.length) (0 : Byte) = List.replicate (55 - m.length) 0 ++ List.replicate 6 0 := by
    rw [List.replicate_append_replicate]
    congr 1
    omega
  rw [paddedBlock, bin64_eq_bits (by omega), hzeros, hpad]
  simp only [bits_append, hmark, List.append_assoc]

theorem length_paddedBlock {m : List Byte} (h : m.length ≤ 33) : (paddedBlock m).length = 512 := by
  simp only [paddedBlock, bin64, List.length_append, length_bits, length_zeros, length_numeral, List.length_singleton]
  omega

/-- Settles O24: the block has the register's length, so it is read back from it, and its bytes are those of
`paddedBlock_eq_bits`. -/
theorem blockModePadsMessage : Obligations.BlockModePadsMessage := fun m h =>
  ⟨length_paddedBlock h, bitsOf_ofBits 512 _ (length_paddedBlock h), rfl, rfl, digest_hashReq .block h, by
    rw [paddedBlock_eq_bits h, bytes_bits]⟩

end Sys2Proof.Machine
end

section
/-! PROOF. The command port (20_memory.md R51, 60_exceptions.md R177, R185): the host's words leave its stream one by one, in
order. -/

namespace Sys2Proof.Machine

@[simp] theorem completePair_cmds (d : BitVec 4) (s : State) : (s.completePair d).cmds = s.cmds :=
  (completePair_keeps d s).2.2.1

/-- No word's rule touches the host's stream: the word has left it when it is accepted. -/
@[simp] theorem wordRule_cmds (w : Word) (s : State) : (wordRule w s).cmds = s.cmds := by
  rcases wordRule_cases w s with e | e | e | ⟨-, e⟩ | ⟨-, sel, -, -, e⟩ | ⟨-, sel, -, -, e⟩ | ⟨-, e⟩ | ⟨-, -, e⟩ |
    ⟨-, -, d, -, -, e⟩ | ⟨-, -, d, -, -, e⟩ <;> simp [e, cancelRule]

/-- The host's step with a word: it is taken off the stream, or held with every register kept. -/
theorem step_host_word_next {s t : State} {w : Word} {ws : List Word} {ts : List Turn} (h : step s = .next t)
    (hturns : s.turns = .host :: ts) (hcmds : s.cmds = w :: ws) :
    (s.cmdReady = true ∧ t.cmds = ws) ∨ (s.cmdReady = false ∧ t = { s with turns := ts }) := by
  rw [step_host_word hturns hcmds] at h
  rcases accept_next h with ⟨ha, rfl⟩ | ⟨h0, hp, rfl⟩
  · refine .inl ⟨(cmdReady_iff s).2 ha, ?_⟩
    rw [wordRule_cmds, State.consume_cmds]
    exact congrArg List.tail hcmds
  · have hheld : s.held = true := (held_iff s).2 ⟨h0, hp⟩
    exact .inr ⟨by simp [State.cmdReady, hheld], rfl⟩

/-- Every step but the host's with a word leaves the stream as it is. -/
theorem step_cmds_of_no_offer {s t : State} (h : step s = .next t)
    (hn : ¬∃ ts w ws, s.turns = .host :: ts ∧ s.cmds = w :: ws) : t.cmds = s.cmds := by
  rcases step_cases h with ⟨-, rfl⟩ | ⟨w, ws, -, hturns, hcmds, -⟩ | ⟨err, r, -, -, -, -, rfl⟩ | ⟨-, rfl⟩
  · rfl
  · exact absurd ⟨_, w, ws, hturns, hcmds⟩ hn
  · obtain ⟨-, -, hc, -⟩ := hashRsp_keeps r.digest err { s with turns := s.turns.tail }
    exact hc
  · rfl

/-- Settles O47: the host's step with a word, every other step, and the two turns that pass. -/
theorem wordsAcceptedInOrder : Obligations.WordsAcceptedInOrder := by
  intro s t h
  refine ⟨fun ts w ws => step_host_word_next h, step_cmds_of_no_offer h, fun hturns => ?_, fun ts hturns hcmds => ?_⟩
  · rw [step_no_turn hturns] at h
    exact (inLegal_next h).2
  · rw [step_host_no_word hturns hcmds] at h
    exact (inLegal_next h).2

end Sys2Proof.Machine
end

section
/-! PROOF. The read port, register by register (20_memory.md R56 to R59, R62, R63). -/

namespace Sys2Proof.Machine

theorem natOf_bitsOf {n : Nat} (v : BitVec n) : natOf (bitsOf v) = v.toNat := by
  have hlt : natOf (bitsOf v) < 2 ^ n := by simpa using natOf_lt (bitsOf v)
  have hv : (ofBits n (bitsOf v)).toNat = v.toNat := congrArg BitVec.toNat (ofBits_bitsOf v)
  rwa [ofBits, BitVec.toNat_ofNat, Nat.mod_eq_of_lt hlt] at hv

/-- The number a byte writes, most significant bit first. -/
theorem byte_toNat_eq_sum (b : Byte) :
    b.toNat = ((List.range 8).map fun j => (b.getMsbD j).toNat * 2 ^ (7 - j)).sum := by
  rw [← natOf_bitsOf b]
  simp [natOf, bitsOf, List.range_succ]
  omega

theorem accByte_toNat (s : State) {k : Nat} (h : k ≤ 32) :
    (s.accByte k).toNat = ((List.range 8).map fun j => (s.acc.getMsbD (8 * k + j)).toNat * 2 ^ (7 - j)).sum := by
  rw [byte_toNat_eq_sum]
  refine congrArg List.sum (List.map_congr_left fun j hj => ?_)
  rw [getMsbD_accByte s k j h (List.mem_range.1 hj)]

/-- A byte of the raw bits is the accumulator's byte (R62, R142). -/
theorem getElem?_bytes_rawBits {s : State} {k : Nat} (hk : k < s.rawlen.toNat) (h : s.rawlen.toNat ≤ 32) :
    (bytes s.rawBits)[k]? = some (s.accByte k) := by
  have hlen : k < (bytes s.rawBits).length := by
    simp [State.rawBits]
    omega
  rw [List.getElem?_eq_getElem hlen, getElem_bytes, accByte_eq_ofBits s k (by omega), State.rawBits, List.drop_take,
    List.take_take, min_eq_left (by omega)]

theorem BlockInv.rawlen_le {s : State} (hi : BlockInv s) (h2 : s.st = 2#3) : s.rawlen.toNat ≤ 32 := by
  obtain ⟨hlo, hhi, -, heb⟩ := hi.collected (.inl h2)
  obtain ⟨-, -, -, -, -, -, heb32, -⟩ := strength_of_valid s.sel ⟨hlo, hhi⟩
  exact heb ▸ heb32

/-- In HASH_WAIT the engine's request is for the accumulator's first RAWLEN bytes (R62). -/
theorem message_of_waiting {s : State} (hi : BlockInv s) (h2 : s.st = 2#3) {k : Nat} (hk : k < s.rawlen.toNat) :
    s.hreq.map (fun r => r.message[k]?) = some (some (s.accByte k)) := by
  have hraw := hi.rawlen_le h2
  have hlen : (bytes s.rawBits).length ≤ 33 := by
    rw [length_bytes, State.rawBits, List.length_take]
    omega
  rw [hi.request h2, Option.map_some, message_hashReq _ hlen, getElem?_bytes_rawBits hk hraw]

/-- Settles O56: the window shows `accByte`; its bits past BGEN are 0 by the invariant, and its first bytes are the
message by `message_of_waiting`. -/
theorem accWindow : Obligations.AccWindow := by
  refine ⟨fun s k hk => ?_, fun s k j hi hk hj hb => ?_, fun s k hi h2 hk => ?_⟩
  · rw [regRead_acc s k hk]
    exact ⟨accByte_toNat s hk, rfl⟩
  · rw [regRead_acc s k hk, getMsbD_accByte s k j hk hj, hi.accTail _ (by omega) hb]
  · have hraw := hi.rawlen_le h2
    rw [regRead_acc s k (by omega), message_of_waiting hi h2 hk]

/-- The two top bits of STATUS: EVT, and a reserved 0 (R57). -/
theorem statusByte_top (s : State) : s.statusByte.getLsbD 6 = s.evt ∧ s.statusByte.getLsbD 7 = false := by
  unfold State.statusByte
  generalize s.evt = e, s.abt = a, s.hpend = p, s.half = h, s.st = st
  revert e a p h st
  decide

/-- The three top bits of ERR are reserved and 0 (R58), so the byte is below 32. -/
theorem errByte_top (s : State) : s.errByte.extractLsb' 5 3 = 0 ∧ s.errByte.toNat < 32 := by
  unfold State.errByte
  generalize s.ill = i, s.seq = q, s.rej = r, s.ecode = e
  revert i q r e
  decide

/-- Settles O52: the byte at 0x00 is `statusByte`, and EVT is 1 exactly in DONE and ERROR. -/
theorem statusLayout : Obligations.StatusLayout := by
  refine ⟨fun s => ?_, regRead_reset 0x00⟩
  have hread : regRead 0x00 s = s.statusByte := rfl
  obtain ⟨hst, hhalf, hhpend, habt⟩ := statusByte_shows s
  obtain ⟨hevt, hzero⟩ := statusByte_top s
  rw [hread]
  exact ⟨hst, hhalf, hhpend, habt, by rw [hevt, evt_iff], hzero⟩

/-- Settles O53: the byte at 0x01 is `errByte`. -/
theorem errLayout : Obligations.ErrLayout := by
  refine ⟨fun s => ?_, regRead_reset 0x01⟩
  have hread : regRead 0x01 s = s.errByte := rfl
  obtain ⟨hecode, hrej, hseq, hill⟩ := errByte_shows s
  rw [hread]
  exact ⟨hecode, hrej, hseq, hill, (errByte_top s).1⟩

/-- A register of 9 bits is the sum its two bytes write (R56). -/
theorem low_add_high (x : BitVec 9) :
    (x.extractLsb' 0 8).toNat + 256 * ((x.extractLsb' 8 1).setWidth 8).toNat = x.toNat := by
  have := x.isLt
  simp [BitVec.extractLsb'_toNat, Nat.shiftRight_eq_div_pow]
  omega

/-- The strength columns that the INFO registers show fit their registers (R24, R56). -/
theorem strength_fits (sel : BitVec 3) :
    (strength sel).eb < 256 ∧ (strength sel).cb < 256 ∧ (strength sel).pn < 256 ∧ (strength sel).tb < 512 := by
  revert sel
  decide +kernel

/-- Settles O54: each address shows its register zero-extended, or its column of the strength table. -/
theorem infoRegisters : Obligations.InfoRegisters := by
  intro s
  obtain ⟨heb, hcb, hpn, htb⟩ := strength_fits s.sel
  have hwide {n : Nat} (hn : n ≤ 8) (x : BitVec n) : (x.setWidth 8).toNat = x.toNat :=
    BitVec.toNat_setWidth_of_le hn
  have htb9 : (BitVec.ofNat 9 (strength s.sel).tb).toNat = (strength s.sel).tb := Nat.mod_eq_of_lt htb
  exact ⟨hwide (by decide) s.sel, Nat.mod_eq_of_lt heb, Nat.mod_eq_of_lt hcb,
    Nat.mod_eq_of_lt hpn, hwide (by decide) s.pcnt, low_add_high s.bgen, (low_add_high _).trans htb9,
    hwide (by decide) s.r1, hwide (by decide) s.rawlen, hwide (by decide) s.candlen, hwide (by decide) s.outlen, rfl⟩

theorem regRead_reserved (s : State) {a : BitVec 8}
    (h : 0x10 ≤ a.toNat ∧ a.toNat ≤ 0x1F ∨ 0x74 ≤ a.toNat ∧ a.toNat ≤ 0x7F ∨ 0xA1 ≤ a.toNat) :
    regRead a s = 0x00 := by
  unfold regRead
  rcases h with h | h | h
  · rw [if_neg (by omega), if_pos (by omega)]
  · rw [if_neg (by omega), if_neg (by omega), if_neg (by omega), if_neg (by omega), if_pos (by omega)]
  · rw [if_neg (by omega), if_neg (by omega), if_neg (by omega), if_neg (by omega), if_neg (by omega),
      if_neg (by omega)]

/-- A register of `n` bits, zero-extended to a byte, leaves the other bits 0 (R63). -/
theorem setWidth_byte_lt {n : Nat} (x : BitVec n) : (x.setWidth 8).toNat < 2 ^ n := by
  rw [BitVec.toNat_setWidth]
  exact (Nat.mod_le _ _).trans_lt x.isLt

/-- Settles O57: the reserved ranges are the last branches of the map, and each narrow register is zero-extended. -/
theorem reservedReadsZero : Obligations.ReservedReadsZero := fun s _ =>
  ⟨regRead_reserved s, (statusByte_top s).2, (errByte_top s).2, setWidth_byte_lt s.sel, setWidth_byte_lt s.pcnt,
    setWidth_byte_lt (s.bgen.extractLsb' 8 1), setWidth_byte_lt ((BitVec.ofNat 9 (strength s.sel).tb).extractLsb' 8 1),
    setWidth_byte_lt s.r1, setWidth_byte_lt s.rawlen, setWidth_byte_lt s.candlen, setWidth_byte_lt s.outlen⟩

end Sys2Proof.Machine
end

section
/-! PROOF. The encoding (30_encoding.md): the opcode map and its inverse, illegal words, and the assembler's lines. -/

namespace Sys2Proof.Machine

/-! ## The two fields of a word (R81) -/

theorem opField_toNat (w : Word) : (opField w).toNat = w.toNat / 16 := by
  have := w.isLt
  simp [opField, BitVec.extractLsb'_toNat, Nat.shiftRight_eq_div_pow]
  omega

theorem argField_toNat (w : Word) : (argField w).toNat = w.toNat % 16 := by
  simp [argField, BitVec.extractLsb'_toNat]

theorem opField_append_argField (w : Word) : opField w ++ argField w = w := by
  revert w
  decide +kernel

theorem opField_and (v w : Word) : opField (v &&& w) = opField v &&& opField w := BitVec.extractLsb'_and

/-! ## Decoding and encoding (R80 to R82) -/

theorem noArg_eq_instr_iff (arg : BitVec 4) (i j : Instr) : noArg arg i = .instr j ↔ arg = 0 ∧ i = j := by
  unfold noArg
  by_cases harg : arg = 0
  · rw [if_pos harg, Decoded.instr.injEq, and_iff_right harg]
  · rw [if_neg harg]
    exact ⟨nofun, fun h => absurd h.1 harg⟩

theorem decode_encode (i : Instr) : decode (encode i) = .instr i := by
  cases i with
  | nop => exact Laws.RoundTrip.nop rfl
  | start sel => exact Laws.RoundTrip.start sel rfl
  | roll d => exact Laws.RoundTrip.roll d rfl
  | cancel => exact Laws.RoundTrip.cancel rfl
  | ack => exact Laws.RoundTrip.ack rfl

/-- In each row of the opcode map that gives a command, the word is the opcode and the argument put together again. -/
theorem encode_of_decode {w : Word} {i : Instr} (h : decode w = .instr i) : encode i = w := by
  rw [← opField_append_argField w]
  have hnoArg {j : Instr} (hj : encode j = opField w ++ 0x0#4) (h : noArg (argField w) j = .instr i) :
      encode i = opField w ++ argField w := by
    obtain ⟨harg, rfl⟩ := (noArg_eq_instr_iff _ _ _).1 h
    rw [hj, harg]
    rfl
  unfold decode at h
  split_ifs at h with hnop hstart hroll hcancel hack
  · exact hnoArg (by rw [hnop]; rfl) h
  · cases h
    rw [hstart]
    rfl
  · cases h
    rw [hroll]
    rfl
  · exact hnoArg (by rw [hcancel]; rfl) h
  · exact hnoArg (by rw [hack]; rfl) h

theorem wf_instr (i : Instr) : i.wf = true := by cases i <;> rfl

/-- Settles O2: `decode_encode` and `encode_of_decode`; every command is well formed (R84). -/
theorem encodeDecodeAgree : Obligations.EncodeDecodeAgree :=
  ⟨fun i _ => decode_encode i, fun _ i h => ⟨encode_of_decode h, wf_instr i⟩⟩

/-! ## Illegal words (R83) -/

theorem length_illegalWords :
    ((List.range 256).filter fun n => (decode (BitVec.ofNat 8 n)).instr? = none).length = 221 := by
  decide +kernel

theorem wordRule_of_illegal {w : Word} {why : Illegal} (h : decode w = .illegal why) : wordRule w = illegalRule := by
  simp [wordRule, h]

/-- Settles O6: the host's turn offers the word; it is accepted and its rule is `flag ILL`, or it is held. -/
theorem illegalWordOnlyFlags : Obligations.IllegalWordOnlyFlags := by
  refine ⟨length_illegalWords, fun s w ws ts why hturn hcmds hdec => ?_⟩
  rw [step_host_word hturn hcmds, wordRule_of_illegal hdec]
  refine ⟨fun ha => ?_, fun h0 hp => accept_of_held _ h0 hp⟩
  have haccepts : Accepts { s with turns := ts } := ha
  rw [accept_of_accepts _ haccepts]
  simp [illegalRule, State.flagIll, State.consume, hcmds]

/-! ## The opcode map's rows (R82) -/

/-- The mask of NOP, CANCEL and ACK: the whole word is fixed. -/
theorem and_fullMask (w : Word) : w &&& 0xFF = w := BitVec.and_allOnes

/-- A row whose mask covers the opcode takes only words of its own opcode. -/
theorem opField_of_takes {r : Row} {w : Word} (hmask : opField r.mask = 0xF) (h : r.takes w = true) :
    opField w = opField r.value := by
  have hv : w &&& r.mask = r.value := by simpa [Row.takes] using h
  rw [← hv, opField_and, hmask]
  exact BitVec.and_allOnes.symm

theorem decode_start_row {w : Word} (h : w &&& 0xF0 = 0x10) : decode w = .instr (.start (argField w)) := by
  have hop : opField w = 0x1 := opField_of_takes (r := ⟨0xF0, 0x10⟩) rfl (beq_iff_eq.2 h)
  simp [decode, hop]

theorem decode_roll_row {w : Word} (h : w &&& 0xF0 = 0x20) : decode w = .instr (.roll (argField w)) := by
  have hop : opField w = 0x2 := opField_of_takes (r := ⟨0xF0, 0x20⟩) rfl (beq_iff_eq.2 h)
  simp [decode, hop]

theorem decode_argNotZero {w : Word} (hop : opField w = 0x0 ∨ opField w = 0x3 ∨ opField w = 0x4)
    (harg : argField w ≠ 0) : decode w = .illegal .argNotZero := by
  have hno (i : Instr) : noArg (argField w) i = .illegal .argNotZero := if_neg harg
  rcases hop with hop | hop | hop <;> simp [decode, hop, hno]

theorem decode_reservedOpcode {w : Word} (hop : 5 ≤ (opField w).toNat) : decode w = .illegal .reservedOpcode := by
  have hne {k : BitVec 4} (hk : k.toNat < 5) : opField w ≠ k := by
    rintro rfl
    omega
  unfold decode
  rw [if_neg (hne (by decide)), if_neg (hne (by decide)), if_neg (hne (by decide)), if_neg (hne (by decide)),
    if_neg (hne (by decide))]

/-- No two rows have the same opcode. -/
theorem opcodeRows_disjoint (w : Word) :
    opcodeRows.Pairwise (fun r q => ¬(r.takes w = true ∧ q.takes w = true)) := by
  have hops : opcodeRows.Pairwise fun r q =>
      opField r.mask = 0xF ∧ opField q.mask = 0xF ∧ opField r.value ≠ opField q.value := by decide
  exact hops.imp fun ⟨hr, hq, hne⟩ ⟨tr, tq⟩ => hne ((opField_of_takes hr tr).symm.trans (opField_of_takes hq tq))

theorem encode_taken (i : Instr) : ∃ r ∈ opcodeRows, r.takes (encode i) = true := by
  cases i with
  | nop => decide
  | start sel => revert sel; decide
  | roll d => revert d; decide
  | cancel => decide
  | ack => decide

/-- Settles O1: a row's mask fixes the opcode, and where the argument must be 0 the whole word; the illegal ranges are
read off the two fields. -/
theorem opcodeMapDecodes : Obligations.OpcodeMapDecodes := by
  intro w
  have hfull {v : Word} {i : Instr} (hv : encode i = v) (h : w &&& 0xFF = v) : decode w = .instr i := by
    rw [and_fullMask] at h
    rw [h, ← hv, decode_encode]
  have hop := opField_toNat w
  have harg := argField_toNat w
  refine ⟨hfull rfl, decode_start_row, decode_roll_row, hfull rfl, hfull rfl, fun h => ?_, fun h => ?_,
    opcodeRows_disjoint w, fun h => ?_, fun ⟨i, h⟩ => encode_of_decode h ▸ encode_taken i⟩
  · exact decode_argNotZero (by bv_omega) (by bv_omega)
  · exact decode_reservedOpcode (by omega)
  · simp only [opcodeRows, List.mem_cons, List.not_mem_nil, or_false, exists_eq_or_imp, exists_eq_left, Row.takes,
      beq_iff_eq] at h
    rcases h with h | h | h | h | h
    · exact ⟨_, hfull (i := .nop) rfl h⟩
    · exact ⟨_, decode_start_row h⟩
    · exact ⟨_, decode_roll_row h⟩
    · exact ⟨_, hfull (i := .cancel) rfl h⟩
    · exact ⟨_, hfull (i := .ack) rfl h⟩

/-- Settles O3: seven of the words are those of commands, and two are in the illegal rows. -/
theorem writtenWordsDecode : Obligations.WrittenWordsDecode :=
  ⟨decode_encode .nop, decode_encode (.start 1), decode_encode (.start 15), decode_encode (.roll 6),
    decode_encode (.roll 0), decode_encode .cancel, decode_encode .ack,
    decode_argNotZero (by decide) (by decide), decode_reservedOpcode (by decide)⟩

/-! ## The assembler (R87, R88) -/

theorem encode_start (sel : BitVec 4) : encode (.start sel) = 0x10 ||| sel.setWidth 8 := by
  revert sel
  decide

theorem encode_roll (d : BitVec 4) : encode (.roll d) = 0x20 ||| d.setWidth 8 := by
  revert d
  decide

/-- An operand 0..15 fits the field ARG. -/
theorem operand_setWidth {n : Nat} (h : n ≤ 15) : (BitVec.ofNat 4 n).setWidth 8 = BitVec.ofNat 8 n :=
  BitVec.setWidth_ofNat_of_le_of_lt (by decide) (by omega)

/-- Settles O4: an operand keeps its value in ARG; the other lines are the equations of `assemble`. -/
theorem assemblerExpandsLines : Obligations.AssemblerExpandsLines := by
  refine ⟨fun n h => ⟨?_, ?_⟩, rfl, rfl, rfl, rfl, rfl, fun w => ?_, fun a b => rfl, fun ds => ?_, fun body => rfl,
    fun n body => rfl, fun a => rfl, rfl⟩
  · rw [Asm.assemble, encode_start, operand_setWidth h]
  · rw [Asm.assemble, encode_roll, operand_setWidth h]
  · rw [Asm.assemble, BitVec.ofNat_toNat, BitVec.setWidth_eq]
  · exact List.map_eq_flatMap

end Sys2Proof.Machine
end

section
/-! PROOF. The control commands NOP, START and ACK, and a command out of its place (40_control.md R100, R101, R103, R104). -/

namespace Sys2Proof.Machine

/-! ## A command out of its place (R104) -/

theorem startRule_of_not_idle (sel : BitVec 4) {s : State} (h : s.st ≠ 0#3) : startRule sel s = s.flagSeq := if_neg h

theorem rollRule_of_not_collect (d : BitVec 4) {s : State} (h : s.st ≠ 1#3) : rollRule d s = s.flagSeq := if_neg h

theorem ackRule_of_not_end {s : State} (h : ¬(s.st = 3#3 ∨ s.st = 4#3)) : ackRule s = s.flagSeq := if_neg h

theorem exec_of_flagSeq {i : Instr} {s : State} (ha : Accepts s) (h : instrRule i s.consume = s.consume.flagSeq) :
    exec i s = .next { s with cmds := s.cmds.tail, seq := true } := by
  rw [exec_of_accepts i ha, h]
  rfl

/-- Settles O11: the rule of each command looks at the state before its argument. -/
theorem commandOutOfPlaceFlagsSeq : Obligations.CommandOutOfPlaceFlagsSeq := by
  intro i s ha hplace
  refine exec_of_flagSeq ha ?_
  cases i with
  | nop => exact hplace.elim
  | start sel => exact startRule_of_not_idle sel hplace
  | roll d => exact rollRule_of_not_collect d hplace
  | cancel => exact hplace.elim
  | ack => exact ackRule_of_not_end (not_or.2 hplace)

/-! ## NOP (R100) -/

/-- Settles O7: the words 0x01 to 0x0F have NOP's opcode and an argument that is not 0; the rule of NOP is the identity. -/
theorem nopDoesNothing : Obligations.NopDoesNothing := by
  refine ⟨by decide, fun w hlo hhi => ?_, fun s ha => exec_of_accepts .nop ha⟩
  have hop := opField_toNat w
  have harg := argField_toNat w
  exact ⟨_, decode_argNotZero (by bv_omega) (by bv_omega)⟩

/-! ## START (R101) -/

theorem accepts_of_idle {s : State} (h0 : s.st = 0#3) (hp : s.hpend = false) : Accepts s :=
  ⟨by simp [h0], fun h => by simp [hp] at h⟩

theorem startRule_of_idle (sel : BitVec 4) {s : State} (h : s.st = 0#3) :
    startRule sel s = startRun sel (s.clearSticky.setAbt false) := if_pos h

theorem startRun_of_valid {sel : BitVec 4} (hv : 1 ≤ sel.toNat ∧ sel.toNat ≤ 5) (s : State) :
    startRun sel s = { s with sel := low3 sel, st := 1#3 } := if_pos ((selValid_iff sel).2 hv)

theorem startRun_of_invalid {sel : BitVec 4} (hv : ¬(1 ≤ sel.toNat ∧ sel.toNat ≤ 5)) (s : State) :
    startRun sel s = s.raiseFatal 1#2 := if_neg (mt (selValid_iff sel).1 hv)

theorem exec_start_of_idle (sel : BitVec 4) {s : State} (h0 : s.st = 0#3) (hp : s.hpend = false) :
    exec (.start sel) s = .next (startRun sel (s.consume.clearSticky.setAbt false)) := by
  rw [exec_of_accepts _ (accepts_of_idle h0 hp), instrRule, startRule_of_idle sel (s := s.consume) h0]

theorem exec_start_of_valid {sel : BitVec 4} {s : State} (h0 : s.st = 0#3) (hp : s.hpend = false)
    (hv : 1 ≤ sel.toNat ∧ sel.toNat ≤ 5) :
    exec (.start sel) s = .next { s with
      cmds := s.cmds.tail, rej := false, seq := false, ill := false, abt := false, sel := low3 sel, st := 1 } := by
  rw [exec_start_of_idle sel h0 hp, startRun_of_valid hv]
  rfl

theorem exec_start_of_invalid {sel : BitVec 4} {s : State} (h0 : s.st = 0#3) (hp : s.hpend = false)
    (hv : ¬(1 ≤ sel.toNat ∧ sel.toNat ≤ 5)) :
    exec (.start sel) s = .next { s with
      cmds := s.cmds.tail, rej := false, seq := false, ill := false, abt := false, ecode := 1, st := 4 } := by
  rw [exec_start_of_idle sel h0 hp, startRun_of_invalid hv]
  rfl

/-- Settles O8: outside IDLE the rule of START is `flag SEQ`; in IDLE it is held, begins a run, or raises the configuration
error, by the request and the selector. -/
theorem startBeginsRun : Obligations.StartBeginsRun := by
  refine ⟨encode_start, by decide, fun sel s ha h0 => ?_, fun sel s h0 hp => ?_, fun sel s => exec_start_of_valid,
    fun sel s => exec_start_of_invalid, _, exec_start_of_valid rfl rfl (by decide), ?_⟩
  · exact exec_of_flagSeq ha (startRule_of_not_idle sel h0)
  · rw [exec_eq_accept, accept_of_held _ h0 hp]
  · decide +kernel

/-! ## ACK (R103) -/

theorem ackRule_of_end {s : State} (h : s.st = 3#3 ∨ s.st = 4#3) : ackRule s = s.clearRun := if_pos h

/-- `ClearRun` (10_state.md R37) with every register written out. -/
theorem clearRun_eq (s : State) :
    s.clearRun = { s with
      st := 0, sel := 0, half := false, r1 := 0, pcnt := 0, bgen := 0, acc := 0, audit := Vector.replicate 52 0
      rawlen := 0, dig0 := 0, candlen := 0, outlen := 0, out := Vector.replicate 32 0, ecode := 0 } := by
  rw [State.clearRun, ofBits_zeros]
  rfl

theorem exec_ack_of_end {s : State} (h : s.st = 3#3 ∨ s.st = 4#3) : exec .ack s = .next s.consume.clearRun := by
  have ha : Accepts s := by rcases h with h | h <;> exact accepts_of_ne_idle (by simp [h]) (by simp [h])
  rw [exec_of_accepts _ ha, instrRule, ackRule_of_end (s := s.consume) h]

/-- `ClearRun` leaves ABT and HPEND, which STATUS then shows alone (20_memory.md R57). -/
theorem statusByte_clearRun {s : State} (ha : s.abt = false) (hp : s.hpend = false) : s.clearRun.statusByte = 0x00 := by
  have hshows : s.clearRun.statusByte = 0#1 ++ 0#1 ++ BitVec.ofBool s.abt ++ BitVec.ofBool s.hpend ++ 0#1 ++ 0#3 := rfl
  rw [hshows, ha, hp]
  decide

/-- Settles O10: in DONE and ERROR the rule of ACK is `ClearRun`, elsewhere `flag SEQ`; the invariant has ABT and HPEND
at 0 in DONE, so STATUS reads 0 after it. -/
theorem ackClearsEndState : Obligations.AckClearsEndState := by
  refine ⟨by decide, fun s hend => ?_, fun s ha hend => ?_, fun s t hi h3 h => ?_⟩
  · rw [exec_ack_of_end hend, clearRun_eq]
    rfl
  · exact exec_of_flagSeq ha (ackRule_of_not_end hend)
  · rw [exec_ack_of_end (.inl h3)] at h
    injection h with h
    subst h
    exact statusByte_clearRun (hi.abt_eq_false (by simp [h3])) (hi.hpend_eq_false (by simp [h3]) (by simp [h3]))

end Sys2Proof.Machine
end

section
/-! PROOF. The symbol of a pair and its five bits (41_collect.md R124, R130). -/

namespace Sys2Proof.Machine

theorem digitCount_le_iff {c : Nat} (hc : c ≠ 0) (w : Nat) : digitCount c ≤ w ↔ c < 2 ^ w := by
  rw [digitCount, if_neg hc, Nat.succ_le_iff, Nat.log2_lt hc]

/-- The numeral of a number below 32 is padded to 5 digits. -/
theorem bin5_of_lt {c : Nat} (h : c < 32) : bin5 c = numeral 5 c := by
  rcases eq_or_ne c 0 with rfl | hc
  · rfl
  · rw [bin5, max_eq_left ((digitCount_le_iff hc 5).2 h)]

/-- The numeral of a number from 32 up to 63 has six digits, and is not cut (00_scope.md R10). -/
theorem bin5_of_ge {c : Nat} (h : 32 ≤ c) (h' : c < 64) : bin5 c = numeral 6 c := by
  have hc : c ≠ 0 := by omega
  have hle : digitCount c ≤ 6 := (digitCount_le_iff hc 6).2 h'
  have hgt : ¬digitCount c ≤ 5 := mt (digitCount_le_iff hc 5).1 (by omega)
  rw [bin5]
  congr 1
  omega

theorem numeral_injective {w c e : Nat} (hc : c < 2 ^ w) (he : e < 2 ^ w) (h : numeral w c = numeral w e) : c = e := by
  rw [numeral_eq_bitsOf, numeral_eq_bitsOf] at h
  have hnat := congrArg BitVec.toNat (bitsOf_injective h)
  rwa [BitVec.toNat_ofNat, BitVec.toNat_ofNat, Nat.mod_eq_of_lt hc, Nat.mod_eq_of_lt he] at hnat

theorem sym5_of_lt (p : Config.SymOvf) {c : Nat} (h : c < 32) : sym5 p c = numeral 5 c := by
  cases p with
  | prefix5 => rw [sym5, bin5_of_lt h, List.take_of_length_le (by simp)]
  | low5 => rw [sym5, Nat.mod_eq_of_lt h, bin5_of_lt h]

/-- PREFIX5 drops the last of the six digits. -/
theorem sym5_prefix5_of_ge {c : Nat} (h : 32 ≤ c) (h' : c < 64) : sym5 .prefix5 c = numeral 5 (c / 2) := by
  rw [sym5, bin5_of_ge h h', numeral_add 5 1, List.take_left' (length_numeral 5 _), pow_one]

/-- LOW5 drops the first of the six digits. -/
theorem sym5_low5_of_ge {c : Nat} (h : 32 ≤ c) (h' : c < 64) : sym5 .low5 c = numeral 5 (c - 32) := by
  have hmod : c % 32 = c - 32 := by omega
  rw [sym5, hmod, bin5_of_lt (by omega)]

/-- Settles O17: below 32 the numeral has 5 digits and is injective; from 32 on it has 6, of which each parameter value
drops one. -/
theorem symbolEncoding : Obligations.SymbolEncoding := by
  refine ⟨fun c hc p => sym5_of_lt p (by omega), fun c hlo hhi => ?_, fun c e hc he p h => ?_, length_sym5⟩
  · exact ⟨bin5_of_ge hlo (by omega), sym5_prefix5_of_ge hlo (by omega), sym5_low5_of_ge hlo (by omega)⟩
  · rw [sym5_of_lt p (by omega), sym5_of_lt p (by omega)] at h
    exact numeral_injective (by omega) (by omega) h

/-- Settles O18: the table's rows are the encodings of R124, the patterns are counted over its 36 symbols, and a symbol
is the base-6 numeral of its pair. -/
theorem symbolTable : Obligations.SymbolTable := by
  refine ⟨fun c hc => ?_, fun c hc => ?_, by decide +kernel, by decide +kernel, fun c _ => ?_⟩
  · split_ifs with h
    · exact sym5_of_lt .prefix5 h
    · exact sym5_prefix5_of_ge (by omega) (by omega)
  · split_ifs with h
    · exact sym5_of_lt .low5 h
    · exact sym5_low5_of_ge (by omega) (by omega)
  · simp only [pairSymbol, Nat.add_sub_cancel]
    omega

end Sys2Proof.Machine
end

section
/-! PROOF. One ROLL in COLLECT (41_collect.md R121 to R127): a rejected die, the first die of a pair, and the second, which
packs the pair and may end collection. -/

namespace Sys2Proof.Machine

theorem exec_roll_of_collect {s : State} (d : BitVec 4) (h1 : s.st = 1#3) :
    exec (.roll d) s = .next (rollRule d s.consume) :=
  exec_of_accepts (.roll d) (accepts_of_ne_idle (by simp [h1]) (by simp [h1]))

theorem rollRule_of_invalid {s : State} {d : BitVec 4} (h1 : s.st = 1#3) (hv : dieValid d = false) :
    rollRule d s = s.flagRej := by
  simp [rollRule, h1, hv]

theorem rollRule_of_first {s : State} {d : BitVec 4} (h1 : s.st = 1#3) (hh : s.half = false) (hv : dieValid d = true) :
    rollRule d s = s.latchDie d := by
  simp [rollRule, h1, hv, hh]

/-- Settles O13: the die check of ROLL comes before the latch. -/
theorem badDieOnlyFlagsRej : Obligations.BadDieOnlyFlagsRej := by
  intro d s h1 hd
  have hv : dieValid d = false := by rwa [← Bool.not_eq_true, dieValid_iff]
  rw [exec_roll_of_collect d h1, rollRule_of_invalid (s := s.consume) h1 hv]
  rfl

/-- Settles O14: with no roll held the rule is `latchDie`, and a valid die fits R1. -/
theorem firstRollIsLatched : Obligations.FirstRollIsLatched := by
  intro d s h1 hh hd1 hd6
  have hv : dieValid d = true := (dieValid_iff d).2 ⟨hd1, hd6⟩
  refine ⟨s.consume.latchDie d, ?_, low3_of_valid (.inr hv), rfl⟩
  rw [exec_roll_of_collect d h1, rollRule_of_first (s := s.consume) h1 hh hv]

theorem exec_second_roll {s : State} {d : BitVec 4} (h1 : s.st = 1#3) (hh : s.half = true)
    (hv : dieValid d = true) : exec (.roll d) s = .next (s.consume.completePair d) := by
  rw [exec_roll_of_collect d h1, rollRule_of_half (s := s.consume) h1 hh hv]

/-- Completing a pair is the append, but for the four registers that the end of collection writes. -/
theorem completePair_eq (d : BitVec 4) (s : State) :
    s.completePair d = { s.appendPair d (s.withPair d) (s.bgen.toNat + s.pairRoom) with
      st := (s.completePair d).st, rawlen := (s.completePair d).rawlen
      hpend := (s.completePair d).hpend, hreq := (s.completePair d).hreq } := by
  obtain ⟨_, rfl, ⟨-, e⟩ | ⟨-, e⟩⟩ := completePair_cases d s
  · rw [e]
  · rw [e]
    rfl

/-- The audit entry holds the first roll in its high nibble and the second in its low one (R126). -/
theorem auditEntry_eq (r1 : BitVec 3) (d : BitVec 4) : auditEntry r1 d = (r1.setWidth 8 <<< 4) ||| d.setWidth 8 := by
  revert r1 d
  decide

/-- Settles O15: `completePair_eq` gives the frame, and `appendPair_spec` what the append writes. -/
theorem secondRollPacksPair : Obligations.SecondRollPacksPair := by
  intro d s h1 hh hr1 hr6 hp hb hd1 hd6
  have hv : dieValid d = true := (dieValid_iff d).2 ⟨hd1, hd6⟩
  obtain ⟨hpcnt, hbgen, -, hlive, htail, hnew, hold⟩ := appendPair_spec (s := s.consume) hb hp d _ rfl
  have htb := (bgen_add_pairRoom (s := s.consume) hb).2.1
  refine ⟨_, exec_second_roll h1 hh hv, by omega, ?_⟩
  rw [completePair_eq]
  refine ⟨hpcnt, rfl, rfl, hbgen, hbgen.trans_le htb, hlive, fun i hi hle => htail i hi (hbgen.trans_le hle), ?_, hold, rfl⟩
  rw [← auditEntry_eq]
  exact hnew

theorem collectionOver_eq_true_iff (t : State) :
    t.collectionOver = true ↔ t.pcnt.toNat = (strength t.sel).pn ∨ (strength t.sel).tb ≤ t.bgen.toNat :=
  decide_eq_true_iff

/-- The end of collection sends the whole bytes of the live bits (R127). -/
theorem endCollect_request {s : State} (hb : s.bgen.toNat ≤ (strength s.sel).tb) (hp : s.pcnt.toNat < 52)
    (d : BitVec 4) {t : State} (ht : t = s.appendPair d (s.withPair d) (s.bgen.toNat + s.pairRoom)) :
    (t.endCollect (s.withPair d)).rawlen.toNat = t.bgen.toNat / 8 ∧
    (t.endCollect (s.withPair d)).hreq =
      some (hashReq s.params.hashIf (bytes ((bitsOf t.acc).take (8 * (t.bgen.toNat / 8))))) := by
  have hbgen := (appendPair_spec hb hp d t ht).2.1
  obtain ⟨hlen, hbits, -⟩ := endCollect_spec hb hp d t _ ht rfl
  have hraw : (t.endCollect (s.withPair d)).rawlen.toNat = t.bgen.toNat / 8 := hbgen ▸ hlen
  have hparams : t.params = s.params := by rw [ht, State.appendPair_params]
  refine ⟨hraw, ?_⟩
  rw [State.endCollect_hreq, hparams, ← hbits, State.rawBits, hraw, State.endCollect_acc]

/-- Among the words only a ROLL that completes a pair issues a request. -/
theorem wordRule_issues {s : State} {w : Word} (hne : (wordRule w s).hreq ≠ s.hreq) :
    s.st = 1#3 ∧ (wordRule w s).st = 2#3 ∧ s.half = true ∧ ∃ d, decode w = .instr (.roll d) := by
  rcases wordRule_cases w s with e | e | e | ⟨-, e⟩ | ⟨-, sel, -, -, e⟩ | ⟨-, sel, -, -, e⟩ | ⟨-, e⟩ | ⟨-, -, e⟩ |
    ⟨-, -, d, -, -, e⟩ | ⟨h1, hh, d, hw, -, e⟩ <;> rw [e] at hne ⊢
  on_goal 10 =>
    obtain ⟨-, -, -, -, -, ⟨-, -, hr⟩ | ⟨h2, -⟩⟩ := completePair_keeps d s
    · exact absurd hr hne
    · exact ⟨h1, h2, hh, d, hw⟩
  all_goals exact absurd rfl hne

/-- Among the steps only the host's with such a word issues a request: a turn that passes keeps the one there is, and the
engine and reset take it back. -/
theorem step_issues {s t : State} (h : step s = .next t) (hsome : t.hreq.isSome = true) (hne : t.hreq ≠ s.hreq) :
    s.st = 1#3 ∧ t.st = 2#3 ∧ s.half = true ∧
      ∃ ts w ws d, s.turns = .host :: ts ∧ s.cmds = w :: ws ∧ decode w = .instr (.roll d) := by
  rcases step_cases h with ⟨-, rfl⟩ | ⟨w, ws, -, hturns, hcmds, rfl⟩ | ⟨err, r, -, -, -, -, rfl⟩ | ⟨-, rfl⟩
  · exact absurd rfl hne
  · obtain ⟨h1, h2, hh, d, hw⟩ := wordRule_issues hne
    exact ⟨h1, h2, hh, _, w, ws, d, hturns, hcmds, hw⟩
  · obtain ⟨-, -, -, -, -, hr, -⟩ := hashRsp_keeps r.digest err { s with turns := s.turns.tail }
    simp [hr] at hsome
  · simp at hsome

/-- Settles O16: the end of collection is decided by `collectionOver`, and then `endCollect` follows the append. -/
theorem endOfCollection : Obligations.EndOfCollection := by
  refine ⟨fun d s t h1 hh hr1 hr6 hp hb hd1 hd6 h => ?_, fun s t => step_issues⟩
  rw [exec_second_roll h1 hh ((dieValid_iff d).2 ⟨hd1, hd6⟩)] at h
  injection h with h
  subst h
  obtain ⟨u, hu, hends⟩ := completePair_cases d s.consume
  have hover := collectionOver_eq_true_iff u
  rw [show u.sel = s.sel by rw [hu]; rfl] at hover
  rcases hends with ⟨ho, e⟩ | ⟨ho, e⟩ <;> rw [e]
  · rw [ho] at hover
    refine ⟨fun hend => absurd (hover.2 hend) Bool.false_ne_true, fun _ => ?_⟩
    rw [hu]
    exact ⟨h1, rfl, rfl, rfl⟩
  · refine ⟨fun _ => ?_, fun hend => absurd (hover.1 ho) hend⟩
    obtain ⟨hraw, hreq⟩ := endCollect_request (s := s.consume) hb hp d hu
    exact ⟨rfl, rfl, hraw, hreq, (appendPair_spec (s := s.consume) hb hp d u hu).2.2.2.1⟩

end Sys2Proof.Machine
end

section
/-! PROOF. 41_collect.md R129 as a law of states: the accumulator holds the symbol stream of the audit record. -/

namespace Sys2Proof.Machine

/-- With no pair recorded the accumulator is empty, and so is the stream. -/
theorem streamInv_of_empty {s : State} (hb : s.bgen = 0#9) (hp : s.pcnt = 0#6) : StreamInv s := by
  simp [StreamInv, State.accLive, State.stream, hb, hp]

/-- The first `n + 1` entries of a record whose entry `n` was just written. -/
theorem take_succ_setIfInBounds {α : Type} {m n : Nat} (v : Vector α m) (x : α) (h : n < m) :
    (v.setIfInBounds n x).toList.take (n + 1) = v.toList.take n ++ [x] := by
  rw [List.take_add_one, Vector.toList_setIfInBounds, List.take_set_of_le le_rfl]
  simp [h]

/-- The pair's entry adds the bits of its symbol to the stream. -/
theorem stream_appendPair {s : State} (hp : s.pcnt.toNat < 52) {d : BitVec 4} (hr : 1 ≤ s.r1.toNat ∧ s.r1.toNat ≤ 6)
    (hv : dieValid d = true) (a : Bits) (b : Nat) :
    (s.appendPair d a b).stream = s.stream ++ sym5 s.params.symOvf (pairSymbol s.r1.toNat d.toNat) := by
  have hpcnt : (BitVec.ofNat 6 (s.pcnt.toNat + 1)).toNat = s.pcnt.toNat + 1 := Nat.mod_eq_of_lt (by omega)
  simp only [State.stream, State.appendPair_audit, State.appendPair_pcnt, State.appendPair_params, hpcnt,
    take_succ_setIfInBounds _ _ hp, List.flatMap_append, List.flatMap_singleton, (auditEntry_ok s.r1 d hr hv).2]

/-- In a run there is room for all 5 bits of the pair's symbol (R128). -/
theorem withPair_eq {s : State} (hi : BlockInv s) (h1 : s.st = 1#3) (d : BitVec 4) :
    s.withPair d = s.accLive ++ sym5 s.params.symOvf (pairSymbol s.r1.toNat d.toNat) := by
  rw [State.withPair, (collect_ranges hi h1).2.2, List.take_of_length_le (by simp)]

theorem accLive_completePair {s : State} (hi : BlockInv s) (h1 : s.st = 1#3) (d : BitVec 4) :
    (s.completePair d).accLive = s.accLive ++ sym5 s.params.symOvf (pairSymbol s.r1.toNat d.toNat) := by
  obtain ⟨hb, hp, -⟩ := collect_ranges hi h1
  rw [completePair_eq, ← withPair_eq hi h1]
  exact (appendPair_spec hb hp d _ rfl).2.2.2.1

theorem StreamInv.completePair {s : State} (hs : StreamInv s) (hi : BlockInv s) (h1 : s.st = 1#3) (hh : s.half = true)
    {d : BitVec 4} (hv : dieValid d = true) : StreamInv (s.completePair d) := by
  have hstream : (s.completePair d).stream = s.stream ++ sym5 s.params.symOvf (pairSymbol s.r1.toNat d.toNat) := by
    rw [completePair_eq]
    exact stream_appendPair (collect_ranges hi h1).2.1 (hi.halfPair hh).2 hv (s.withPair d) (s.bgen.toNat + s.pairRoom)
  rw [StreamInv, accLive_completePair hi h1, hstream, hs]

/-- An accepted word clears the record and the accumulator, completes a pair, or touches neither. -/
theorem StreamInv.wordRule {s : State} (hs : StreamInv s) (hi : BlockInv s) (w : Word) : StreamInv (wordRule w s) := by
  rcases wordRule_cases w s with e | e | e | ⟨-, e⟩ | ⟨-, sel, -, -, e⟩ | ⟨-, sel, -, -, e⟩ | ⟨-, e⟩ | ⟨-, -, e⟩ |
    ⟨-, -, d, -, -, e⟩ | ⟨h1, hh, d, -, hv, e⟩ <;> rw [e]
  · exact hs
  · exact hs
  · exact hs
  · exact hs
  · exact hs
  · exact hs
  · exact streamInv_of_empty rfl rfl
  · exact streamInv_of_empty rfl rfl
  · exact hs
  · exact hs.completePair hi h1 hh hv

theorem StreamInv.hashRsp {s : State} (hs : StreamInv s) (digest : BitVec 256) (err : Bool) :
    StreamInv (hashRsp digest err s) := by
  rcases hashRsp_cases digest err s with ⟨-, e⟩ | ⟨-, -, e⟩ | ⟨-, -, e⟩ <;> rw [e] <;> exact hs

/-- Settles O43, along the four things a step can do: a passed turn and the engine's response touch neither side, an
accepted word is `StreamInv.wordRule`, and reset empties both. -/
theorem accumulatorIsSymbolStream : Obligations.AccumulatorIsSymbolStream := by
  intro s t hi hs h
  rcases step_cases h with ⟨-, rfl⟩ | ⟨w, ws, -, -, -, rfl⟩ | ⟨err, r, -, -, -, -, rfl⟩ | ⟨-, rfl⟩
  · exact hs
  · have hs' : StreamInv { s with turns := s.turns.tail, cmds := ws } := hs
    exact hs'.wordRule (hi.of_bookkeeping s.rej s.seq s.ill ws s.turns.tail) w
  · have hs' : StreamInv { s with turns := s.turns.tail } := hs
    exact hs'.hashRsp r.digest err
  · exact streamInv_of_empty rfl rfl

end Sys2Proof.Machine
end

section
/-! PROOF. A run over its dice (41_collect.md R128, R129): each valid die brings it one nearer its end, and what the
accumulator will hold is settled by the dice that are still to come. -/

namespace Sys2Proof.Machine

/-! ## The count of dice -/

theorem BlockInv.taken_lt {s : State} (hi : BlockInv s) (h1 : s.st = 1#3) : s.taken < (strength s.sel).rl := by
  have hpn := (hi.collecting h1).1
  obtain ⟨-, -, -, hrl, -⟩ := strength_of_valid s.sel (hi.running (.inl h1))
  have hhalf := s.half.toNat_lt
  unfold State.taken
  omega

theorem BlockInv.taken_eq {s : State} (hi : BlockInv s) (h2 : s.st = 2#3) : s.taken = (strength s.sel).rl := by
  obtain ⟨hlo, hhi, hpn, -⟩ := hi.collected (.inl h2)
  obtain ⟨-, -, -, hrl, -⟩ := strength_of_valid s.sel ⟨hlo, hhi⟩
  rw [State.taken, hi.half_eq_false (by simp [h2]), hpn, hrl]
  rfl

/-! ## What one die does to the run -/

/-- The roll held in the latch, as a die value. -/
def State.latched (s : State) : List (BitVec 4) := if s.half then [s.r1.setWidth 4] else []

/-- What the accumulator holds once the dice `ds` are packed too. -/
def State.packedWith (s : State) (ds : List (BitVec 4)) : Bits :=
  s.accLive ++ diceStream s.params.symOvf (s.latched ++ ds)

theorem packedWith_nil {s : State} (hh : s.half = false) : s.packedWith [] = s.accLive := by
  simp [State.packedWith, State.latched, hh, diceStream]

/-- Before its first die a run has packed nothing. -/
theorem packedWith_of_no_die {s : State} (hi : BlockInv s) (h0 : s.taken = 0) (ds : List (BitVec 4)) :
    s.packedWith ds = diceStream s.params.symOvf ds := by
  obtain ⟨hpcnt, hhalf⟩ : s.pcnt.toNat = 0 ∧ s.half.toNat = 0 := by
    unfold State.taken at h0
    omega
  have hbgen : s.bgen.toNat = 0 := by rw [hi.fivePerPair, hpcnt]
  simp [State.packedWith, State.latched, State.accLive, Bool.toNat_eq_zero.1 hhalf, hbgen]

/-- The die `d` was taken into the run, on the way from `s` to `t`. -/
structure DieTaken (d : BitVec 4) (s t : State) : Prop where
  inv    : BlockInv t
  st     : t.st = 1#3 ∨ t.st = 2#3
  sel    : t.sel = s.sel
  params : t.params = s.params
  taken  : t.taken = s.taken + 1
  packed : ∀ ds, t.packedWith ds = s.packedWith (d :: ds)

theorem setWidth_low3 {d : BitVec 4} (hv : dieValid d = true) : (low3 d).setWidth 4 = d := by
  revert d
  decide

theorem dieTaken_latchDie {s : State} {d : BitVec 4} (hi : BlockInv s) (h1 : s.st = 1#3) (hh : s.half = false)
    (hv : dieValid d = true) : DieTaken d s (s.latchDie d) where
  inv := hi.latchDie h1 hv
  st := .inl h1
  sel := rfl
  params := rfl
  taken := by simp [State.taken, hh]
  packed ds := by
    have hlive : (s.latchDie d).accLive = s.accLive := rfl
    simp [State.packedWith, State.latched, hlive, hh, setWidth_low3 hv]

theorem dieTaken_completePair {s : State} {d : BitVec 4} (hi : BlockInv s) (h1 : s.st = 1#3) (hh : s.half = true)
    (hv : dieValid d = true) : DieTaken d s (s.completePair d) := by
  obtain ⟨hsel, hparams, -, -, -, hst⟩ := completePair_keeps d s
  obtain ⟨hb, hp, -⟩ := collect_ranges hi h1
  have hhalf : (s.completePair d).half = false := by rw [completePair_eq]; rfl
  have hpcnt : (s.completePair d).pcnt.toNat = s.pcnt.toNat + 1 := by
    rw [completePair_eq]
    exact (appendPair_spec hb hp d _ rfl).1
  have hr1 : (s.r1.setWidth 4).toNat = s.r1.toNat := BitVec.toNat_setWidth_of_le (by decide)
  exact
    { inv := hi.completePair h1 hh hv
      st := hst.imp (fun h => h.1.trans h1) And.left
      sel := hsel
      params := hparams
      taken := by simp [State.taken, hhalf, hpcnt, hh]; omega
      packed := fun ds => by
        simp [State.packedWith, State.latched, hhalf, hh, accLive_completePair hi h1, diceStream, hr1] }

/-- A valid die offered in COLLECT is taken: the word leaves the host's stream, and what `DieTaken` says of `s.consume` it
says of `s`. -/
theorem exec_roll_takes {s : State} {d : BitVec 4} (hi : BlockInv s) (h1 : s.st = 1#3) (hv : dieValid d = true) :
    ∃ t, exec (.roll d) s = .next t ∧ DieTaken d s t := by
  cases hh : s.half with
  | false =>
    refine ⟨s.consume.latchDie d, ?_, { dieTaken_latchDie hi.consume h1 hh hv with }⟩
    rw [exec_roll_of_collect d h1, rollRule_of_first (s := s.consume) h1 hh hv]
  | true => exact ⟨_, exec_second_roll h1 hh hv, { dieTaken_completePair hi.consume h1 hh hv with }⟩

/-- Settles O21: a taken die leaves COLLECT or HASH_WAIT, and in either the invariant knows the count. -/
theorem validDiceCountDown : Obligations.ValidDiceCountDown := by
  intro d s hi h1 hd1 hd6
  obtain ⟨t, ht, hdie⟩ := exec_roll_takes hi h1 ((dieValid_iff d).2 ⟨hd1, hd6⟩)
  refine ⟨hi.taken_lt h1, t, ht, hdie.taken, hdie.sel, ?_⟩
  rw [← hdie.sel]
  rcases hdie.st with h | h
  · have hlt := hdie.inv.taken_lt h
    exact ⟨by simp [h]; omega, by simp [h, hlt]⟩
  · have heq := hdie.inv.taken_eq h
    exact ⟨by simp [h, heq], by simp [h, heq]⟩

/-! ## A list of dice -/

theorem rollAll_cons {s t : State} {d : BitVec 4} (h : exec (.roll d) s = .next t) (ds : List (BitVec 4)) :
    rollAll (d :: ds) s = rollAll ds t := by
  rw [rollAll, h]

/-- In HASH_WAIT every ROLL only sets SEQ (R104). -/
theorem rollAll_of_hashWait (ds : List (BitVec 4)) {s : State} (h2 : s.st = 2#3) :
    ∃ b cs, rollAll ds s = .next { s with seq := b, cmds := cs } := by
  induction ds generalizing s with
  | nil => exact ⟨s.seq, s.cmds, rfl⟩
  | cons d ds ih =>
    have hseq : instrRule (.roll d) s.consume = s.consume.flagSeq := rollRule_of_not_collect d (by simp [h2])
    rw [rollAll_cons (exec_of_flagSeq (accepts_of_ne_idle (by simp [h2]) (by simp [h2])) hseq)]
    exact ih h2

/-- What a run over its last dice leaves: HASH_WAIT, and the accumulator its first state had settled. -/
structure RunPacked (valid : List (BitVec 4)) (s t : State) : Prop where
  inv    : BlockInv t
  st     : t.st = 2#3
  sel    : t.sel = s.sel
  params : t.params = s.params
  acc    : t.accLive = s.packedWith valid

/-- From any state of a run, dice that hold as many valid ones as the run still needs end it. -/
theorem rollAll_packs (ds : List (BitVec 4)) {s : State} (hi : BlockInv s) (h1 : s.st = 1#3)
    (hlen : s.taken + (ds.filter dieValid).length = (strength s.sel).rl) :
    ∃ t, rollAll ds s = .next t ∧ RunPacked (ds.filter dieValid) s t := by
  induction ds generalizing s with
  | nil => exact absurd hlen (hi.taken_lt h1).ne
  | cons d ds ih =>
    cases hv : dieValid d with
    | false =>
      rw [List.filter_cons_of_neg (by simp [hv])] at hlen ⊢
      have hi' : BlockInv s.consume.flagRej := hi.of_bookkeeping true s.seq s.ill s.cmds.tail s.turns
      have hroll : exec (.roll d) s = .next s.consume.flagRej := by
        rw [exec_roll_of_collect d h1, rollRule_of_invalid (s := s.consume) h1 hv]
      obtain ⟨t, ht, hpack⟩ := ih hi' h1 hlen
      exact ⟨t, (rollAll_cons hroll ds).trans ht, { hpack with }⟩
    | true =>
      rw [List.filter_cons_of_pos hv] at hlen ⊢
      obtain ⟨u, hroll, hdie⟩ := exec_roll_takes hi h1 hv
      have hlen' : u.taken + (ds.filter dieValid).length = (strength u.sel).rl := by
        rw [hdie.sel, hdie.taken, ← hlen, List.length_cons]
        omega
      rw [rollAll_cons hroll]
      rcases hdie.st with h | h
      · obtain ⟨t, ht, hpack⟩ := ih hdie.inv h hlen'
        exact ⟨t, ht, hpack.inv, hpack.st, hpack.sel.trans hdie.sel, hpack.params.trans hdie.params,
          hpack.acc.trans (hdie.packed _)⟩
      · have hnone : ds.filter dieValid = [] := List.length_eq_zero_iff.1 (by have := hdie.inv.taken_eq h; omega)
        obtain ⟨b, cs, ht⟩ := rollAll_of_hashWait ds h
        refine ⟨_, ht, hdie.inv.of_bookkeeping u.rej b u.ill cs u.turns, h, hdie.sel, hdie.params, ?_⟩
        rw [hnone, ← hdie.packed, packedWith_nil (hdie.inv.half_eq_false (by simp [h]))]
        rfl

/-- The raw bits of a collected run are the first `S` of its accumulator's. -/
theorem rawBits_eq_take_accLive {s : State} (hi : BlockInv s) (h2 : s.st = 2#3) :
    s.rawBits = s.accLive.take (strength s.sel).s := by
  obtain ⟨hlo, hhi, hpn, heb⟩ := hi.collected (.inl h2)
  obtain ⟨-, hdiv, -, -, hs, -⟩ := strength_of_valid s.sel ⟨hlo, hhi⟩
  have hbgen := hi.fivePerPair
  rw [State.rawBits, State.accLive, List.take_take, hs, heb, min_eq_left (by omega)]

/-- Settles O22: with no die taken the run packs the valid dice alone, and the invariant gives the counts and the request
of the state it ends in. -/
theorem collectionPacksDiceStream : Obligations.CollectionPacksDiceStream := by
  intro ds s hi h1 h0 valid hlen
  obtain ⟨t, ht, hpack⟩ := rollAll_packs ds hi h1 (by rw [h0, Nat.zero_add]; exact hlen)
  have hacc : t.accLive = diceStream s.params.symOvf valid :=
    hpack.acc.trans (packedWith_of_no_die hi h0 valid)
  obtain ⟨hlo, hhi, hpn, heb⟩ := hpack.inv.collected (.inl hpack.st)
  obtain ⟨-, -, hmb, -⟩ := strength_of_valid t.sel ⟨hlo, hhi⟩
  rw [← hpack.sel]
  refine ⟨t, ht, hpack.st, rfl, hpack.params, hacc, ?_, heb, ?_⟩
  · rw [hpack.inv.fivePerPair, hpn, hmb]
  · rw [hpack.inv.request hpack.st, rawBits_eq_take_accLive hpack.inv hpack.st, hacc, hpack.params]

end Sys2Proof.Machine
end

section
/-! PROOF. What a response computes from the raw bits and the digest (42_finalize.md R143 to R146): the checksum, the
candidate, its canonical length and the bytes of the result. -/

namespace Sys2Proof.Machine

/-- Digest byte 0 is the digest's first eight bits (20_memory.md R54). -/
theorem bitsOf_digestByte_zero (digest : BitVec 256) : bitsOf (digestByte digest 0) = (bitsOf digest).take 8 := by
  have hbyte : digestByte digest 0 = ofBits 8 ((bitsOf digest).take 8) := extractLsb'_eq_byte digest 0 (by decide)
  rw [hbyte, bitsOf_ofBits 8 _ (by simp)]

/-- Up to eight checksum bits stand in digest byte 0 (R143). -/
theorem checksum_eq_take_digestByte (digest : BitVec 256) {cb : Nat} (h : cb ≤ 8) :
    checksum digest cb = (bitsOf (digestByte digest 0)).take cb := by
  rw [bitsOf_digestByte_zero, List.take_take, min_eq_left h, checksum]

/-- Settles O27: the checksum is read off digest byte 0, so the examples are about the one byte 0x37. -/
theorem checksumBits : Obligations.ChecksumBits := by
  refine ⟨fun digest cb h => ⟨checksum_eq_take_digestByte digest h, length_checksum digest h⟩, fun digest h => ?_, ?_⟩
  · rw [checksum_eq_take_digestByte digest (by decide), checksum_eq_take_digestByte digest (by decide), h]
    decide
  · decide +kernel

/-- The second truncation drops a checksum shorter than a byte (R144). -/
theorem trunc8_append_of_short {raw ck : Bits} (hraw : raw.length % 8 = 0) (hck : ck.length < 8) :
    trunc8 (raw ++ ck) = raw := by
  have hlen : 8 * ((raw ++ ck).length / 8) = raw.length := by
    rw [List.length_append]
    omega
  rw [trunc8, hlen, List.take_left]

/-- Settles O28: the truncation cuts a short checksum off, and keeps one that fills its byte. -/
theorem candidateBytes : Obligations.CandidateBytes := by
  refine ⟨fun raw ck => ⟨rfl, by simp⟩, fun raw ck hraw hck => ⟨trunc8_append_of_short hraw hck, ?_⟩,
    fun raw ck hraw hck => ⟨trunc8_of_dvd _ ?_, ?_⟩, by decide +kernel, rfl⟩
  · rw [length_candidate]
    omega
  · rw [List.length_append]
    omega
  · rw [length_candidate]
    omega

theorem canon_mem (l : Nat) : canon l ∈ [16, 20, 24, 28, 32] := by
  rw [canon_eq]
  split_ifs <;> decide

/-- No canonical length comes before `canon l` in the order of the pair `(|l - t|, t)` (R145). -/
theorem canon_first (l : Nat) {u : Int} (hu : u ∈ [16, 20, 24, 28, 32]) :
    ((l : Int) - canon l).natAbs < ((l : Int) - u).natAbs ∨
      ((l : Int) - canon l).natAbs = ((l : Int) - u).natAbs ∧ canon l ≤ u := by
  simp only [List.mem_cons, List.not_mem_nil, or_false] at hu
  rw [canon_eq]
  split_ifs <;> omega

theorem canon_le (l : Nat) : canon l ≤ 32 := by
  rw [canon_eq]
  split_ifs <;> decide

/-- Settles O29, from the closed form `canon_eq`. -/
theorem canonicalLength : Obligations.CanonicalLength :=
  ⟨fun l => ⟨canon_mem l, fun _ => canon_first l⟩, by decide, fun l _ => canon_eq l⟩

theorem fit_of_le {cand : List Byte} {t : Nat} (h : t ≤ cand.length) : fit cand t = cand.take t := if_pos h

theorem fit_of_lt {cand : List Byte} {t : Nat} (h : cand.length < t) :
    fit cand t = cand ++ List.replicate (t - cand.length) 0 := if_neg (by omega)

/-- Cut or padded, the bytes that stay keep their places (R146). -/
theorem getElem?_fit {cand : List Byte} {t n : Nat} (h : n < min cand.length t) : (fit cand t)[n]? = cand[n]? := by
  rcases le_or_gt t cand.length with ht | ht
  · rw [fit_of_le ht, List.getElem?_take_of_lt (by omega)]
  · rw [fit_of_lt ht, List.getElem?_append_left (by omega)]

theorem getElem?_outBuffer (out : List Byte) {n : Nat} (h : n < 32) : (outBuffer out)[n]? = some (out.getD n 0) := by
  simp [outBuffer, h]

/-- The result buffer holds the bytes of the result first (R142). -/
theorem getElem?_outBuffer_of_lt {out : List Byte} {n : Nat} (h : n < 32) (hn : n < out.length) :
    (outBuffer out)[n]? = out[n]? := by
  rw [getElem?_outBuffer out h, List.getD_eq_getElem out 0 hn, List.getElem?_eq_getElem hn]

/-- Past the bytes of the result the buffer is zero (R142). -/
theorem getElem?_outBuffer_of_ge {out : List Byte} {n : Nat} (h : n < 32) (hn : out.length ≤ n) :
    (outBuffer out)[n]? = some 0 := by
  rw [getElem?_outBuffer out h, List.getD_eq_default out 0 hn]

theorem toList_outBuffer {out : List Byte} (h : out.length ≤ 32) :
    (outBuffer out).toList = out ++ List.replicate (32 - out.length) 0 := by
  apply List.ext_getElem
  · simp
    omega
  · intro n hn _
    have hn32 : n < 32 := by simpa using hn
    rw [Vector.getElem_toList, ← Option.some_inj, ← Vector.getElem?_eq_getElem hn32]
    rcases lt_or_ge n out.length with hlt | hge
    · rw [getElem?_outBuffer_of_lt hn32 hlt, List.getElem_append_left hlt, List.getElem?_eq_getElem hlt]
    · rw [getElem?_outBuffer_of_ge hn32 hge, List.getElem_append_right hge, List.getElem_replicate]

/-- A buffer written from `fit` holds its bytes, then zeros. -/
theorem getElem?_outBuffer_fit (cand : List Byte) (t : Nat) {n : Nat} (h : n < 32) :
    (outBuffer (fit cand t))[n]? = some (if n < t then (fit cand t).getD n 0 else 0) := by
  split_ifs with ht
  · exact getElem?_outBuffer _ h
  · exact getElem?_outBuffer_of_ge h (by simpa using ht)

/-- Settles O30: `fit` in its two cases, and OUT, which the read port shows, as the buffer of its bytes. -/
theorem fitToLength : Obligations.FitToLength := by
  refine ⟨fun _ _ => fit_of_le, fun _ _ => fit_of_lt, fun _ _ _ => getElem?_fit, length_fit,
    fun cand t n s ht hn hout => ?_⟩
  have hbyte : s.out[n]? = (fit cand t)[n]? := by
    rw [hout, getElem?_outBuffer_of_lt (by omega) (by rwa [length_fit])]
  refine ⟨hbyte, ?_⟩
  rw [regRead_out s n (by omega), ← hbyte, Vector.getElem?_eq_getElem (by omega)]

end Sys2Proof.Machine
end

section
/-! PROOF. The hash engine's step (42_finalize.md R142), and the result it leaves: the first `S` bits of the run's symbol
stream (R147). -/

namespace Sys2Proof.Machine

theorem length_bytes_rawBits {s : State} (hi : BlockInv s) (h2 : s.st = 2#3) :
    (bytes s.rawBits).length = (strength s.sel).eb := by
  rw [length_bytes, length_rawBits hi h2, Nat.mul_div_cancel_left _ (by decide)]

theorem length_bytes_rawBits_le {s : State} (hi : BlockInv s) (h2 : s.st = 2#3) : (bytes s.rawBits).length ≤ 32 := by
  obtain ⟨-, -, -, heb⟩ := hi.collected (.inl h2)
  rw [length_bytes_rawBits hi h2, ← heb]
  exact hi.rawlen_le h2

/-! ## The step in each of its cases -/

/-- An engine with no answer to give lets its turn pass (log entry 4). -/
theorem step_engine_passes {s : State} {err : Bool} {ts : List Turn} (hl : s.st.toNat ≤ 4)
    (hturns : s.turns = .engine err :: ts) (h : s.engineReady err = false) : step s = .next { s with turns := ts } := by
  rw [step_engine hturns]
  rcases engineStep_cases err { s with turns := ts } with ⟨-, e⟩ | ⟨-, -, hready, -⟩
  · exact e.trans (inLegal_of_legal _ hl)
  · exact absurd (h.symm.trans hready) Bool.false_ne_true

/-- An outstanding request is answered, by a failure only where the build allows one. -/
theorem step_engine_answers {s : State} {err : Bool} {ts : List Turn} (hi : BlockInv s)
    (hturns : s.turns = .engine err :: ts) (hp : s.hpend = true) (herr : err = true → s.params.hashFail = true) :
    ∃ r, s.hreq = some r ∧ step s = .next (hashRsp r.digest err { s with turns := ts }) := by
  have hready : s.engineReady err = true := (engineReady_iff s err).2 ⟨hp, hi.captured.trans hp, herr⟩
  rw [step_engine hturns]
  rcases engineStep_cases err { s with turns := ts } with ⟨hnot, -⟩ | ⟨r, hr, -, e⟩
  · exact absurd (hnot.symm.trans hready) Bool.false_ne_true
  · exact ⟨r, hr, e.trans (inLegal_of_legal _ hi.legal)⟩

/-- In HASH_WAIT the engine's digest is that of the raw bytes (R140, R142). -/
theorem BlockInv.digest_eq {s : State} (hi : BlockInv s) (h2 : s.st = 2#3) {r : HashReq} (hr : s.hreq = some r) :
    r.digest = Config.sha256 (bytes s.rawBits) := by
  obtain rfl : r = hashReq s.params.hashIf (bytes s.rawBits) := Option.some.inj (hr.symm.trans (hi.request h2))
  exact digest_hashReq _ (Nat.le_succ_of_le (length_bytes_rawBits_le hi h2))

/-- The engine's success in HASH_WAIT (R142). -/
theorem step_engine_finishes {s : State} {ts : List Turn} (hi : BlockInv s) (h2 : s.st = 2#3)
    (hturns : s.turns = .engine false :: ts) :
    step s = .next (({ s with turns := ts } : State).answered.finish (Config.sha256 (bytes s.rawBits))) := by
  obtain ⟨r, hr, e⟩ := step_engine_answers hi hturns (hi.waits h2) (by simp)
  rw [e, hi.digest_eq h2 hr]
  exact congrArg _ (if_pos h2)

/-- The candidate of a waiting run is its raw bytes, and at most one more (R144). -/
theorem length_candidate_le {s : State} (hi : BlockInv s) (h2 : s.st = 2#3) (digest : BitVec 256) :
    (candidate s.rawBits (checksum digest (strength s.sel).cb)).length ≤ 33 := by
  obtain ⟨hlo, hhi, -⟩ := hi.collected (.inl h2)
  obtain ⟨-, -, -, -, -, -, heb, -, hcb, -⟩ := strength_of_valid s.sel ⟨hlo, hhi⟩
  rw [length_candidate, length_rawBits hi h2, length_checksum digest hcb]
  omega

/-- Settles O25: an engine that is not ready passes; one that is answers by `hashRsp`, in its three cases. A candidate of at
most 33 bytes, and a canonical length of at most 32, fit their registers. -/
theorem responseStep : Obligations.ResponseStep := by
  intro s err ts hi hturns
  refine ⟨fun h => step_engine_passes hi.legal hturns ?_, fun hp herr h2 => ?_, fun h2 herr hfail => ?_,
    fun h2 herr => ?_⟩
  · rcases h with hp | ⟨herr, hfail⟩
    · simp [State.engineReady, hp]
    · simp [State.engineReady, herr, hfail]
  · obtain ⟨r, -, e⟩ := step_engine_answers hi hturns hp herr
    exact e.trans (congrArg _ (if_neg h2))
  · obtain ⟨r, -, e⟩ := step_engine_answers hi hturns (hi.waits h2) fun _ => hfail
    subst herr
    exact e.trans (congrArg _ (if_pos h2))
  · subst herr
    have hcand := length_candidate_le hi h2 (Config.sha256 (bytes s.rawBits))
    refine ⟨_, step_engine_finishes hi h2 hturns, rfl, Nat.mod_eq_of_lt (Nat.lt_of_le_of_lt hcand (by decide)),
      Nat.mod_eq_of_lt (Nat.lt_of_le_of_lt (canon_le _) (by decide)), fun n hn => ?_, rfl, rfl⟩
    exact getElem?_outBuffer_fit _ _ hn

/-! ## The result of a run -/

/-- The lengths of a result are those of the table (R147). -/
theorem finish_lengths {s : State} (hi : BlockInv s) (h2 : s.st = 2#3) (digest : BitVec 256) :
    (s.answered.finish digest).outlen.toNat = (strength s.sel).eb ∧
    (s.answered.finish digest).candlen.toNat = (strength s.sel).eb + if (strength s.sel).cb = 8 then 1 else 0 := by
  obtain ⟨hlo, hhi, -⟩ := hi.collected (.inl h2)
  obtain ⟨-, -, -, -, -, -, heb, -, hcb, -⟩ := strength_of_valid s.sel ⟨hlo, hhi⟩
  rw [finish_eq hi h2]
  simp only [BitVec.toNat_ofNat]
  split_ifs <;> omega

theorem finish_out {s : State} (hi : BlockInv s) (h2 : s.st = 2#3) (digest : BitVec 256) :
    (s.answered.finish digest).out = outBuffer (bytes s.rawBits) := by
  rw [finish_eq hi h2]

/-- Settles O31: the result is the raw bytes, which are the accumulator's. -/
theorem completeRunResult : Obligations.CompleteRunResult := by
  intro s ts hi h2 hturns
  obtain ⟨hlo, hhi, hpn, hraw⟩ := hi.collected (.inl h2)
  obtain ⟨-, -, hmb, -, -, -, heb, -, -, hcb, -⟩ := strength_of_valid s.sel ⟨hlo, hhi⟩
  obtain ⟨houtlen, hcandlen⟩ := finish_lengths hi h2 (Config.sha256 (bytes s.rawBits))
  have hout := finish_out hi h2 (Config.sha256 (bytes s.rawBits))
  have hlen := length_bytes_rawBits hi h2
  simp only [hcb] at hcandlen
  refine ⟨_, step_engine_finishes hi h2 hturns, rfl, ?_, hraw, houtlen, hcandlen, fun n hn => ?_, fun n hn hn32 => ?_⟩
  · exact hi.fivePerPair.trans (by rw [hpn, hmb])
  · calc some (s.accByte n) = (bytes s.rawBits)[n]? := (getElem?_bytes_rawBits (by omega) (by omega)).symm
      _ = (outBuffer (bytes s.rawBits))[n]? := (getElem?_outBuffer_of_lt (by omega) (by omega)).symm
      _ = _ := congrArg (·[n]?) hout.symm
  · exact (congrArg (·[n]?) hout).trans (getElem?_outBuffer_of_ge hn32 (by omega))

/-! ## The result along every step -/

theorem resultInv_of_not_done {s : State} (h : s.st ≠ 3#3) : ResultInv s := fun h3 => absurd h3 h

/-- The raw bits are the first `S` bits of the symbol stream, so the result's bytes are theirs. -/
theorem resultInv_finish {s : State} (hi : BlockInv s) (hs : StreamInv s) (h2 : s.st = 2#3) :
    ResultInv (s.answered.finish (Config.sha256 (bytes s.rawBits))) := by
  have hraw : s.stream.take (strength s.sel).s = s.rawBits := by rw [rawBits_eq_take_accLive hi h2, hs]
  obtain ⟨houtlen, hcandlen⟩ := finish_lengths hi h2 (Config.sha256 (bytes s.rawBits))
  refine fun _ => ⟨?_, houtlen, hcandlen, ?_⟩
  · rw [finish_out hi h2, toList_outBuffer (length_bytes_rawBits_le hi h2), length_bytes_rawBits hi h2, ← hraw]
    rfl
  · rw [← hraw]
    rfl

/-- An accepted word keeps the result, or leaves a state other than DONE. -/
theorem ResultInv.wordRule {s : State} (hr : ResultInv s) (w : Word) : ResultInv (wordRule w s) := by
  rcases wordRule_cases w s with e | e | e | ⟨-, e⟩ | ⟨-, sel, -, -, e⟩ | ⟨-, sel, -, -, e⟩ | ⟨-, e⟩ | ⟨-, -, e⟩ |
    ⟨h1, -, d, -, -, e⟩ | ⟨h1, -, d, -, -, e⟩ <;> rw [e]
  · exact hr
  · exact hr
  · exact hr
  · exact hr
  · exact resultInv_of_not_done (by simp)
  · exact resultInv_of_not_done (by simp)
  · exact resultInv_of_not_done (by simp [cancelRule])
  · exact resultInv_of_not_done (by simp)
  · exact resultInv_of_not_done (by simp [h1])
  · obtain ⟨-, -, -, -, -, ⟨hst, -⟩ | ⟨hst, -⟩⟩ := completePair_keeps d s
    · exact resultInv_of_not_done (by simp [hst, h1])
    · exact resultInv_of_not_done (by simp [hst])

/-- The engine's answer to the request it holds is late, a failure, or the run's result. -/
theorem ResultInv.hashRsp {s : State} (hr : ResultInv s) (hi : BlockInv s) (hs : StreamInv s) {r : HashReq}
    (hreq : s.hreq = some r) (err : Bool) : ResultInv (hashRsp r.digest err s) := by
  rcases hashRsp_cases r.digest err s with ⟨-, e⟩ | ⟨-, -, e⟩ | ⟨h2, -, e⟩ <;> rw [e]
  · exact hr
  · exact resultInv_of_not_done (by simp)
  · rw [hi.digest_eq h2 hreq]
    exact resultInv_finish hi hs h2

/-- Settles O44, along the four things a step can do: a passed turn keeps the result, an accepted word is
`ResultInv.wordRule`, the engine's response is `ResultInv.hashRsp`, and reset leaves IDLE. -/
theorem resultIsSymbolStream : Obligations.ResultIsSymbolStream := by
  intro s t hi hs hr h
  have hi' := hi.of_bookkeeping s.rej s.seq s.ill s.cmds s.turns.tail
  rcases step_cases h with ⟨-, rfl⟩ | ⟨w, ws, -, -, -, rfl⟩ | ⟨err, r, -, -, hreq, -, rfl⟩ | ⟨-, rfl⟩
  · exact hr
  · exact ResultInv.wordRule (s := { s with turns := s.turns.tail, cmds := ws }) hr w
  · exact ResultInv.hashRsp (s := { s with turns := s.turns.tail }) hr hi' hs hreq err
  · exact resultInv_of_not_done (by simp)

end Sys2Proof.Machine
end

section
/-! PROOF. Fatal errors (60_exceptions.md R162 to R168): what writes ECODE, how ERROR is left, and the orders of a response
and a command in HASH_WAIT. -/

namespace Sys2Proof.Machine

/-! ## What a step does to ECODE (R162) -/

theorem hashRsp_of_not_waiting (digest : BitVec 256) (err : Bool) {s : State} (h : s.st ≠ 2#3) :
    hashRsp digest err s = s.answered := if_neg h

theorem hashRsp_failure (digest : BitVec 256) {s : State} (h : s.st = 2#3) :
    hashRsp digest true s = s.answered.raiseFatal 2#2 := if_pos h

theorem hashRsp_success (digest : BitVec 256) {s : State} (h : s.st = 2#3) :
    hashRsp digest false s = s.answered.finish digest := if_pos h

/-- Among the words only a START in IDLE with a bad selector raises a fatal error. -/
theorem wordRule_ecode (w : Word) (s : State) :
    (wordRule w s).ecode = s.ecode ∨ (wordRule w s).ecode = 0#2 ∨
      (s.st = 0#3 ∧ ∃ sel, decode w = .instr (.start sel) ∧ selValid sel = false ∧
        wordRule w s = (s.clearSticky.setAbt false).raiseFatal 1#2) := by
  rcases wordRule_cases w s with e | e | e | ⟨-, e⟩ | ⟨-, sel, -, -, e⟩ | ⟨h0, sel, hw, hv, e⟩ | ⟨-, e⟩ | ⟨-, -, e⟩ |
    ⟨-, -, d, -, -, e⟩ | ⟨-, -, d, -, -, e⟩ <;> rw [e]
  · exact .inl rfl
  · exact .inl rfl
  · exact .inl rfl
  · exact .inl rfl
  · exact .inl rfl
  · exact .inr (.inr ⟨h0, sel, hw, hv, rfl⟩)
  · exact .inr (.inl rfl)
  · exact .inr (.inl rfl)
  · exact .inl rfl
  · obtain ⟨-, -, -, -, hecode, -⟩ := completePair_keeps d s
    exact .inl hecode

/-- How a step takes ECODE from `s` to `t`: it keeps or clears it, or raises one of the two fatal errors. -/
inductive EcodeEffect (s t : State) : Prop where
  | keep (after : t.ecode = s.ecode)
  | clear (after : t.ecode = 0#2)
  | config (ts : List Turn) (w : Word) (ws : List Word) (sel : BitVec 4) (idle : s.st = 0#3) (free : s.hpend = false)
      (turn : s.turns = .host :: ts) (offered : s.cmds = w :: ws) (word : decode w = .instr (.start sel))
      (bad : selValid sel = false)
      (after : t = (({ s with turns := ts, cmds := ws } : State).clearSticky.setAbt false).raiseFatal 1#2)
  | hash (ts : List Turn) (waiting : s.st = 2#3) (allowed : s.params.hashFail = true)
      (turn : s.turns = .engine true :: ts) (after : t.ecode = 2#2)

theorem step_ecode {s t : State} (h : step s = .next t) : EcodeEffect s t := by
  rcases step_cases h with ⟨-, rfl⟩ | ⟨w, ws, ha, hturns, hcmds, rfl⟩ | ⟨err, r, -, hturns, -, hready, rfl⟩ | ⟨-, rfl⟩
  · exact .keep rfl
  · rcases wordRule_ecode w { s with turns := s.turns.tail, cmds := ws } with e | e | ⟨h0, sel, hw, hv, e⟩
    · exact .keep e
    · exact .clear e
    · have hfree : s.hpend = false := by simpa [show s.st = 0#3 from h0] using ha.2
      exact .config _ w ws sel h0 hfree hturns hcmds hw hv e
  · obtain ⟨-, -, -, -, -, -, ⟨-, e⟩ | ⟨h2, rfl, -, e⟩ | ⟨-, -, -, e⟩⟩ :=
      hashRsp_keeps r.digest err { s with turns := s.turns.tail }
    · exact .keep (by rw [e]; rfl)
    · obtain ⟨-, -, hallowed⟩ := (engineReady_iff s true).1 hready
      exact .hash _ h2 (hallowed rfl) hturns e
    · exact .keep e
  · exact .clear rfl

/-- Settles O33: the two cases of a failed response, and of the four effects on ECODE only the hash failure makes it 2. -/
theorem hashFailureOnlyFromResponse : Obligations.HashFailureOnlyFromResponse := by
  refine ⟨fun digest s h2 => hashRsp_failure digest h2, fun digest s h2 => ?_, fun s t h hs ht => ?_⟩
  · rw [hashRsp_of_not_waiting digest true h2, State.answered_ecode]
  · cases step_ecode h with
    | keep after => exact absurd (after ▸ ht) hs
    | clear after => simp [after] at ht
    | config _ _ _ _ _ _ _ _ _ _ after => simp [after] at ht
    | hash ts waiting allowed turn _ => exact ⟨allowed, waiting, ts, turn⟩

/-! ## The configuration error (R164) -/

/-- The addresses from 0x02 on show neither ST nor ECODE nor a flag. -/
theorem regRead_info_tail {a : BitVec 8} (hlo : 0x02 ≤ a.toNat) (hhi : a.toNat ≤ 0x0F) (s : State) :
    regRead a s = (s.infoBytes.drop 2).getD (a.toNat - 2) 0 := by
  rw [regRead_info a s (by omega), List.getD_eq_getElem?_getD, List.getD_eq_getElem?_getD, List.getElem?_drop,
    Nat.add_sub_cancel' hlo]

/-- With no run the registers shown there are empty. -/
theorem RunCleared.infoBytes_tail {s : State} (hc : RunCleared s) : s.infoBytes.drop 2 = List.replicate 14 0 := by
  simp only [State.infoBytes, hc.sel, hc.pcnt, hc.bgen, hc.r1, hc.rawlen, hc.candlen, hc.outlen, hc.dig0]
  rfl

/-- Settles O34: of the four effects on ECODE only the configuration error makes it 1; it leaves every register that the
addresses 0x02 to 0x0F show as IDLE had it. -/
theorem configErrorOnlyFromStart : Obligations.ConfigErrorOnlyFromStart := by
  refine ⟨fun sel s h0 hp hv => ⟨_, exec_start_of_invalid h0 hp hv, rfl, rfl, rfl⟩, fun s t hi h hs ht => ?_⟩
  cases step_ecode h with
  | keep after => exact absurd (after ▸ ht) hs
  | clear after => simp [after] at ht
  | hash _ _ _ _ after => simp [after] at ht
  | config ts w ws sel idle free turn offered word bad after =>
    have hc := hi.idle idle
    have hbad : ¬(1 ≤ sel.toNat ∧ sel.toNat ≤ 5) := by simp [← selValid_iff, bad]
    have hinfo : t.infoBytes.drop 2 = List.replicate 14 0 := by
      rw [← hc.infoBytes_tail, after]
      rfl
    refine ⟨idle, free, by rw [after]; rfl, by rw [after]; exact hc.sel, fun a hlo hhi => ?_,
      ts, w, ws, sel, turn, offered, word, hbad⟩
    rw [regRead_info_tail hlo hhi, hinfo, List.getD_replicate _ (by omega)]

/-! ## The way out of ERROR (R168) -/

/-- In ERROR a word writes nothing but SEQ and ILL, or is an ACK or a CANCEL and leads to IDLE. -/
theorem wordRule_of_error (w : Word) {s : State} (h4 : s.st = 4#3) :
    (∃ a b, wordRule w s = { s with seq := a, ill := b }) ∨
      ((wordRule w s).st = 0#3 ∧ (decode w = .instr .ack ∨ decode w = .instr .cancel)) := by
  have hne {x : BitVec 3} (hx : x ≠ 4#3) : s.st ≠ x := fun h => hx (h ▸ h4)
  rcases wordRule_cases w s with e | e | e | ⟨h1, -⟩ | ⟨h0, -⟩ | ⟨h0, -⟩ | ⟨hw, e⟩ | ⟨-, hw, e⟩ | ⟨h1, -⟩ | ⟨h1, -⟩
  · exact .inl ⟨s.seq, s.ill, e⟩
  · exact .inl ⟨true, s.ill, e⟩
  · exact .inl ⟨s.seq, true, e⟩
  · exact absurd h1 (hne (by decide))
  · exact absurd h0 (hne (by decide))
  · exact absurd h0 (hne (by decide))
  · exact .inr ⟨by rw [e]; rfl, .inr hw⟩
  · exact .inr ⟨by rw [e]; rfl, .inl hw⟩
  · exact absurd h1 (hne (by decide))
  · exact absurd h1 (hne (by decide))

/-- Settles O35, along the four things a step can do: a passed turn keeps every register, a word goes by
`wordRule_of_error`, the engine has no request to answer, and reset leads to IDLE. -/
theorem errorLeftOnlyByAckOrCancel : Obligations.ErrorLeftOnlyByAckOrCancel := by
  intro s t hi h4 h
  rcases step_cases h with ⟨-, rfl⟩ | ⟨w, ws, -, hturns, hcmds, rfl⟩ | ⟨err, r, -, -, -, hready, -⟩ | ⟨hturns, rfl⟩
  · exact .inl ⟨h4, rfl⟩
  · rcases wordRule_of_error w (s := { s with turns := s.turns.tail, cmds := ws }) h4 with ⟨a, b, e⟩ | ⟨h0, hw⟩
    · rw [e]
      exact .inl ⟨h4, rfl⟩
    · exact .inr ⟨h0, .inr ⟨_, w, ws, hturns, hcmds, hw⟩⟩
  · have hp := hi.hpend_eq_false (by simp [h4]) (by simp [h4])
    simp [State.engineReady, hp] at hready
  · exact .inr ⟨rfl, .inl ⟨_, hturns⟩⟩

/-! ## A response and a command in either order (R167) -/

/-- CANCEL leaves nothing of the run: but for ABT and the request the block is as after reset. -/
theorem cancelRule_eq_reset (s : State) :
    cancelRule s = { State.reset with
      abt := true, hpend := s.hpend, hreq := s.hreq, params := s.params, cmds := s.cmds, turns := s.turns } :=
  cancelRule_eq s

/-- A run that is cancelled is the same whether it was answered before or is answered after. -/
theorem cancelRule_hashRsp (digest : BitVec 256) (err : Bool) (s : State) :
    cancelRule (hashRsp digest err s).consume = (cancelRule s.consume).answered := by
  obtain ⟨-, hparams, hcmds, hturns, hp, hr, -⟩ := hashRsp_keeps digest err s
  simp only [cancelRule_eq_reset, State.consume, State.answered, hparams, hcmds, hturns, hp, hr]

theorem hashRsp_success_done (digest : BitVec 256) {s : State} (h2 : s.st = 2#3) :
    (hashRsp digest false s).st = 3#3 ∧ (hashRsp digest false s).seq = s.seq := by
  rw [hashRsp_success digest h2]
  exact ⟨rfl, rfl⟩

/-- After the response it waits for, the block is in DONE or ERROR. -/
theorem hashRsp_st_of_waiting (digest : BitVec 256) (err : Bool) {s : State} (h2 : s.st = 2#3) :
    (hashRsp digest err s).st = 3#3 ∨ (hashRsp digest err s).st = 4#3 := by
  cases err with
  | false => exact .inl (hashRsp_success_done digest h2).1
  | true => exact .inr (by rw [hashRsp_failure digest h2, State.raiseFatal_st, stError])

theorem accepts_of_end {s : State} (h : s.st = 3#3 ∨ s.st = 4#3) : Accepts s := by
  rcases h with h | h <;> exact accepts_of_ne_idle (by simp [h]) (by simp [h])

/-- Settles O37: a CANCEL forgets what the response did, and a response after it is late; an ACK before the response only
sets SEQ, and after it clears the result. -/
theorem responseOrders : Obligations.ResponseOrders := by
  intro s digest err hi h2
  have ha : Accepts s := accepts_of_ne_idle hi.legal (by simp [h2])
  constructor
  · refine ⟨_, _, exec_of_accepts .cancel ha,
      exec_of_accepts .cancel (accepts_of_end (hashRsp_st_of_waiting digest err h2)), ?_⟩
    simp only [instrRule, cancelRule_hashRsp]
    exact ⟨hashRsp_of_not_waiting digest err (show (0#3 : BitVec 3) ≠ 2#3 by decide), rfl, rfl, rfl,
      { runCleared_clearRun s.consume with }⟩
  · have hack := ackRule_of_not_end (s := s.consume) (by simp [h2])
    obtain ⟨hst, hseq⟩ := hashRsp_success_done digest (s := s.consume.flagSeq) h2
    exact ⟨_, _, exec_of_flagSeq ha hack, hst, hseq, exec_ack_of_end (.inl (hashRsp_success_done digest h2).1), rfl⟩

end Sys2Proof.Machine
end

section
/-! PROOF. Reset and the hold (70_reset_and_hazards.md R180, R188, R189). -/

namespace Sys2Proof.Machine

/-! ## The hold (R188) -/

theorem cmdReady_of_held {s : State} (h0 : s.st = 0#3) (hp : s.hpend = true) : s.cmdReady = false := by
  simp [State.cmdReady, (held_iff s).2 ⟨h0, hp⟩]

/-- With `HPEND` down, an idle block takes words again. -/
theorem cmdReady_of_idle {s : State} (h0 : s.st = 0#3) (hp : s.hpend = false) : s.cmdReady = true :=
  (cmdReady_iff s).2 (accepts_of_idle h0 hp)

theorem exec_of_held (i : Instr) {s : State} (h0 : s.st = 0#3) (hp : s.hpend = true) : exec i s = .next s :=
  (exec_eq_accept i s).trans (accept_of_held _ h0 hp)

/-- In the hold the host's turn passes, with a word on offer or none. -/
theorem step_host_of_held {s : State} {ts : List Turn} (h0 : s.st = 0#3) (hp : s.hpend = true)
    (hturns : s.turns = .host :: ts) : step s = .next { s with turns := ts } := by
  by_cases hc : s.cmds = []
  · exact (step_host_no_word hturns hc).trans (inLegal_of_legal _ (by simp [h0]))
  · obtain ⟨w, ws, hw⟩ := List.exists_cons_of_ne_nil hc
    exact (step_host_word hturns hw).trans (accept_of_held _ h0 hp)

/-- A response in IDLE only releases the request. -/
theorem step_engine_of_idle {s : State} {err : Bool} {ts : List Turn} (h0 : s.st = 0#3)
    (hturns : s.turns = .engine err :: ts) (hready : s.engineReady err = true) :
    step s = .next ({ s with turns := ts } : State).answered := by
  rw [step_engine hturns]
  rcases engineStep_cases err { s with turns := ts } with ⟨hnot, -⟩ | ⟨r, -, -, e⟩
  · exact absurd (hnot.symm.trans hready) Bool.false_ne_true
  · rw [e, inLegal_of_legal _ (by simp [h0]), hashRsp_of_not_waiting _ _ (by simp [h0])]

/-- Settles O12: a held word and a held host's turn pass; the response and reset both leave the block in IDLE with `HPEND`
down. -/
theorem holdUntilAnswered : Obligations.HoldUntilAnswered := by
  intro s h0 hp
  refine ⟨cmdReady_of_held h0 hp, fun i => exec_of_held i h0 hp, fun ts => step_host_of_held h0 hp,
    fun ts err hturns hreq herr => ?_, fun ts hturns => ⟨_, step_rst hturns, cmdReady_of_idle rfl rfl⟩⟩
  have hready : s.engineReady err = true := (engineReady_iff s err).2 ⟨hp, hreq, herr⟩
  exact ⟨_, step_engine_of_idle h0 hturns hready, rfl, cmdReady_of_idle h0 rfl⟩

/-- Settles O26: a late response is `State.answered`, which writes `HPEND` and the engine's request alone. -/
theorem lateResponseDiscarded : Obligations.LateResponseDiscarded :=
  fun digest err _ h => hashRsp_of_not_waiting digest err h

/-! ## The state after reset (R180) -/

/-- Settles O50: each register holds the 0 that `State.reset` gives it, so every read is 0 and the block is in IDLE with no
request outstanding. -/
theorem resetState : Obligations.ResetState :=
  ⟨by constructor <;> rfl, regRead_reset, (evt_eq_false_iff _).2 (by decide), cmdReady_of_idle rfl rfl⟩

end Sys2Proof.Machine
end
